-- ==== Sys2Proof/Word.lean ====
section
/-! DEFINITION. The word types of the machine and their plainest arithmetic.

Bit numbering is the spec's (R6): bit 0 is the least significant bit. Every value is unsigned (R7),
so the only widening is by zeros. -/

namespace Sys2Proof

/-- An 8-bit value: a general register, a memory byte, a timer, the immediate `kk` (R6, R20). -/
abbrev Byte := BitVec 8

/-- A 16-bit value: an instruction word, I, PC, a return address (R6, R22, R23, R24). -/
abbrev Word := BitVec 16

/-- A 12-bit address or immediate, the field `nnn` (R9, R91). -/
abbrev Addr := BitVec 12

/-- A general register's number, 0 to 15: what the fields `x` and `y` hold (R20, R91). -/
abbrev Reg := Fin 16

/-- A sprite's row count, 0 to 15: what the field `n` of `0xDxyn` holds (R93). -/
abbrev Count := Fin 16

/-- The number of VF, the flag register, which is V[15] (R21). -/
abbrev Reg.vf : Reg := 15

/-- `zext_16` of an 8-bit value (R7). -/
def Byte.zext16 (b : Byte) : Word := b.setWidth 16

/-- `zext_16` of a 12-bit value (R7, R93). -/
def Addr.zext16 (a : Addr) : Word := a.setWidth 16

end Sys2Proof
end

