-- ==== Sys2Proof/Config.lean ====
section
/-! DEFINITION. What is fixed for the machine: the parameters of rule R5, the type of the parameters
R5 leaves OPEN (the font), and the one free value of the model (the random byte, R154). -/

namespace Sys2Proof.Config

/-- `MEM_SIZE`: 4096 bytes, addresses 0x000 to 0xFFF (R5, R60). -/
abbrev memSize : Nat := 4096

/-- `PROG_BASE`: the first byte of the program region and the reset value of PC (R5, R61). -/
abbrev progBase : Nat := 0x200

/-- `STACK_DEPTH`: the return-address entries (R5, R24). -/
abbrev stackDepth : Nat := 16

/-- `DISP_W`: the display's columns (R5, R28). -/
abbrev dispW : Nat := 64

/-- `DISP_H`: the display's rows (R5, R28). -/
abbrev dispH : Nat := 32

/-- The load port refuses an image of this many bytes or more: `MEM_SIZE - 0x200` (R5, R243). -/
abbrev loadLimit : Nat := memSize - progBase

/-- The font parameters that R5 and R242 leave OPEN (D17). `base` is `FONT_BASE`, whose type states
the spec's constraint `FONT_BASE + 80 <= 0x200`, and `bytes` is `FONT`. Each machine has one value
of it, carried by its memory, so that a statement about every state is one about every font. -/
structure FontParams where
  /-- `FONT_BASE`, at most 0x200 - 80 = 432. -/
  base  : Fin 433
  /-- `FONT`, 16 glyphs of 5 bytes. -/
  bytes : Vector Byte 80
deriving DecidableEq, Repr

/-- FREE VALUE (R34, R43, R154, D22; log entry 1). The byte the entropy service supplies with the
n-th random draw to which the host has supplied none. It has no body: the spec puts no law on it. -/
opaque randomByte : Nat → Byte

end Sys2Proof.Config
end

