-- ==== Sys2Proof/Syntax.lean ====
section
/-! DEFINITION. The instructions: one constructor for each of the 27 rows of the opcode map (R104).

Operands carry their own range (a register number is a `Reg`, `nnn` an `Addr`), so that no value of
`Instr` lacks a word. `shr` and `shl` keep the field `y`, which they decode and do not use (R96). -/

namespace Sys2Proof

/-- The instruction set (R104). The pattern is the spec's primary name of an instruction (R103). -/
inductive Instr where
  /-- `0x00E0` CLS: clear the display (R121). -/
  | cls
  /-- `0x00EE` RET: return from subroutine (R122). -/
  | ret
  /-- `0x00FD` EXIT: halt the machine (R123). -/
  | exit
  /-- `0x1nnn` JP nnn (R131). -/
  | jp (nnn : Addr)
  /-- `0x2nnn` CALL nnn (R132). -/
  | call (nnn : Addr)
  /-- `0x3xkk` SE Vx, kk (R133). -/
  | seImm (x : Reg) (kk : Byte)
  /-- `0x4xkk` SNE Vx, kk (R134). -/
  | sneImm (x : Reg) (kk : Byte)
  /-- `0x5xy0` SE Vx, Vy (R135). -/
  | seReg (x y : Reg)
  /-- `0x6xkk` LD Vx, kk (R151). -/
  | ldImm (x : Reg) (kk : Byte)
  /-- `0x7xkk` ADD Vx, kk (R152). -/
  | addImm (x : Reg) (kk : Byte)
  /-- `0x8xy0` LD Vx, Vy (R161). -/
  | ldReg (x y : Reg)
  /-- `0x8xy1` OR Vx, Vy (R162). -/
  | orReg (x y : Reg)
  /-- `0x8xy2` AND Vx, Vy (R163). -/
  | andReg (x y : Reg)
  /-- `0x8xy3` XOR Vx, Vy (R164). -/
  | xorReg (x y : Reg)
  /-- `0x8xy4` ADD Vx, Vy (R165). -/
  | addReg (x y : Reg)
  /-- `0x8xy5` SUB Vx, Vy (R166). -/
  | subReg (x y : Reg)
  /-- `0x8xy6` SHR Vx (R167); `y` is decoded and not used (R96). -/
  | shr (x y : Reg)
  /-- `0x8xy7` SUBN Vx, Vy (R168). -/
  | subnReg (x y : Reg)
  /-- `0x8xyE` SHL Vx (R169); `y` is decoded and not used (R96). -/
  | shl (x y : Reg)
  /-- `0x9xy0` SNE Vx, Vy (R136). -/
  | sneReg (x y : Reg)
  /-- `0xAnnn` LD I, nnn (R153). -/
  | ldI (nnn : Addr)
  /-- `0xBnnn` JP V0, nnn (R137). -/
  | jpV0 (nnn : Addr)
  /-- `0xCxkk` RND Vx, kk (R154). -/
  | rnd (x : Reg) (kk : Byte)
  /-- `0xDxyn` DRW Vx, Vy, n (R181). -/
  | drw (x y : Reg) (n : Count)
  /-- `0xFx1E` ADD I, Vx (R191). -/
  | addI (x : Reg)
  /-- `0xFx55` LD [I], Vx (R192). -/
  | storeRegs (x : Reg)
  /-- `0xFx65` LD Vx, [I] (R193). -/
  | loadRegs (x : Reg)
deriving DecidableEq, Repr

/-- The six fields the decoder extracts from every word, whichever instruction it is (R9, R91). -/
structure Fields where
  /-- bits 15:12, the instruction family -/
  op  : Fin 16
  /-- bits 11:8, register number 1 -/
  x   : Reg
  /-- bits 7:4, register number 2 -/
  y   : Reg
  /-- bits 3:0, 4-bit immediate or count -/
  n   : Count
  /-- bits 7:0, 8-bit immediate -/
  kk  : Byte
  /-- bits 11:0, 12-bit address or immediate -/
  nnn : Addr
deriving DecidableEq, Repr

end Sys2Proof
end

