-- ==== Sys2Proof/WellFormed.lean ====
section
/-! DEFINITION. What is well formed: operand values (R93), decoded fields (R91) and program images
(R243). The types of `Instr` already bound its operands, so every instruction passes its check; the
check says it about the operands as numbers, where a number too large for its field is refused. -/

namespace Sys2Proof

/-- The kinds of operand a format has (R92). -/
inductive OperandKind where
  /-- a register number, 4 bits -/
  | reg
  /-- a row count, 4 bits -/
  | count
  /-- an 8-bit immediate -/
  | imm8
  /-- a 12-bit address or immediate -/
  | addr12
deriving DecidableEq, Repr

/-- How many values a field of this kind can hold: 2 to its width (R91). -/
def OperandKind.size : OperandKind → Nat
  | .reg => 16
  | .count => 16
  | .imm8 => 256
  | .addr12 => 4096

/-- An operand as a plain number, before it is given a field. -/
structure Operand where
  kind  : OperandKind
  value : Nat
deriving DecidableEq, Repr

/-- The operand fits its field: immediates are unsigned and used at their own width (R93). -/
abbrev Operand.wf (o : Operand) : Prop := o.value < o.kind.size

/-- The operand of a register field. -/
def Operand.ofReg (r : Reg) : Operand := ⟨.reg, r.val⟩

/-- The operand of an 8-bit immediate field. -/
def Operand.ofImm (kk : Byte) : Operand := ⟨.imm8, kk.toNat⟩

/-- The operand of a 12-bit field. -/
def Operand.ofAddr (nnn : Addr) : Operand := ⟨.addr12, nnn.toNat⟩

/-- The operands of an instruction, as numbers, in the order its format lists them (R92). -/
def Instr.operands : Instr → List Operand
  | .cls => []
  | .ret => []
  | .exit => []
  | .jp nnn => [.ofAddr nnn]
  | .call nnn => [.ofAddr nnn]
  | .seImm x kk => [.ofReg x, .ofImm kk]
  | .sneImm x kk => [.ofReg x, .ofImm kk]
  | .seReg x y => [.ofReg x, .ofReg y]
  | .ldImm x kk => [.ofReg x, .ofImm kk]
  | .addImm x kk => [.ofReg x, .ofImm kk]
  | .ldReg x y => [.ofReg x, .ofReg y]
  | .orReg x y => [.ofReg x, .ofReg y]
  | .andReg x y => [.ofReg x, .ofReg y]
  | .xorReg x y => [.ofReg x, .ofReg y]
  | .addReg x y => [.ofReg x, .ofReg y]
  | .subReg x y => [.ofReg x, .ofReg y]
  | .shr x y => [.ofReg x, .ofReg y]
  | .subnReg x y => [.ofReg x, .ofReg y]
  | .shl x y => [.ofReg x, .ofReg y]
  | .sneReg x y => [.ofReg x, .ofReg y]
  | .ldI nnn => [.ofAddr nnn]
  | .jpV0 nnn => [.ofAddr nnn]
  | .rnd x kk => [.ofReg x, .ofImm kk]
  | .drw x y n => [.ofReg x, .ofReg y, ⟨.count, n.val⟩]
  | .addI x => [.ofReg x]
  | .storeRegs x => [.ofReg x]
  | .loadRegs x => [.ofReg x]

/-- Every operand of the instruction fits its field. -/
abbrev Instr.wf (i : Instr) : Prop := ∀ o ∈ i.operands, o.wf

/-- The fields overlap as rule R91 says: `kk = y * 16 + n` and `nnn = x * 256 + kk`. -/
abbrev Fields.wf (f : Fields) : Prop :=
  f.kk.toNat = f.y.val * 16 + f.n.val ∧ f.nnn.toNat = f.x.val * 256 + f.kk.toNat

/-- The load port takes the image: fewer than 3584 bytes (R243; the bound is exclusive). -/
abbrev ImageFits (bytes : List Byte) : Prop := bytes.length < Config.loadLimit

end Sys2Proof
end

