-- ==== Sys2Proof/Decode.lean ====
section
/-! DEFINITION. The decoder (R90 to R102), the opcode map as data (R104), and the encoder, both
written from the spec's formats (R92) and map. -/

namespace Sys2Proof

/-- Why a word selects no instruction, by the family whose secondary dispatch turned it away. Each
is the fault cause `UnknownInstruction` (R94, R101, R201). -/
inductive Illegal where
  /-- family 0: not 0x00E0, 0x00EE or 0x00FD (R95) -/
  | family0
  /-- family 5: `n` is not 0 (R98) -/
  | family5
  /-- family 8: `n` in 8 to 0xD, or 0xF (R96) -/
  | family8
  /-- family 9: `n` is not 0 (R98) -/
  | family9
  /-- family 0xE: no row at all (R99) -/
  | familyE
  /-- family 0xF: `kk` not 0x1E, 0x55 or 0x65 (R97) -/
  | familyF
deriving DecidableEq, Repr

/-- The decoder: pure bit extraction from the fetched word (R91). -/
def Fields.ofWord (w : Word) : Fields where
  op  := (w.extractLsb' 12 4).toFin
  x   := (w.extractLsb' 8 4).toFin
  y   := (w.extractLsb' 4 4).toFin
  n   := (w.extractLsb' 0 4).toFin
  kk  := w.extractLsb' 0 8
  nnn := w.extractLsb' 0 12

/-- Secondary dispatch of family 0x0 (R95): all 16 bits must match, so `x` must be 0 as well. -/
def dispatch0 (f : Fields) : Except Illegal Instr :=
  if f.nnn = 0x0E0 then .ok .cls
  else if f.nnn = 0x0EE then .ok .ret
  else if f.nnn = 0x0FD then .ok .exit
  else .error .family0

/-- Family 0x5 (R98). -/
def dispatch5 (f : Fields) : Except Illegal Instr :=
  if f.n = 0 then .ok (.seReg f.x f.y) else .error .family5

/-- Secondary dispatch of family 0x8 on `n` (R96). -/
def dispatch8 (f : Fields) : Except Illegal Instr :=
  if f.n = 0x0 then .ok (.ldReg f.x f.y)
  else if f.n = 0x1 then .ok (.orReg f.x f.y)
  else if f.n = 0x2 then .ok (.andReg f.x f.y)
  else if f.n = 0x3 then .ok (.xorReg f.x f.y)
  else if f.n = 0x4 then .ok (.addReg f.x f.y)
  else if f.n = 0x5 then .ok (.subReg f.x f.y)
  else if f.n = 0x6 then .ok (.shr f.x f.y)
  else if f.n = 0x7 then .ok (.subnReg f.x f.y)
  else if f.n = 0xE then .ok (.shl f.x f.y)
  else .error .family8

/-- Family 0x9 (R98). -/
def dispatch9 (f : Fields) : Except Illegal Instr :=
  if f.n = 0 then .ok (.sneReg f.x f.y) else .error .family9

/-- Secondary dispatch of family 0xF on `kk` (R97). -/
def dispatchF (f : Fields) : Except Illegal Instr :=
  if f.kk = 0x1E then .ok (.addI f.x)
  else if f.kk = 0x55 then .ok (.storeRegs f.x)
  else if f.kk = 0x65 then .ok (.loadRegs f.x)
  else .error .familyF

/-- Primary dispatch on `op` (R94), every family written out (R102). -/
def dispatch (f : Fields) : Except Illegal Instr :=
  match f.op with
  | 0x0 => dispatch0 f
  | 0x1 => .ok (.jp f.nnn)
  | 0x2 => .ok (.call f.nnn)
  | 0x3 => .ok (.seImm f.x f.kk)
  | 0x4 => .ok (.sneImm f.x f.kk)
  | 0x5 => dispatch5 f
  | 0x6 => .ok (.ldImm f.x f.kk)
  | 0x7 => .ok (.addImm f.x f.kk)
  | 0x8 => dispatch8 f
  | 0x9 => dispatch9 f
  | 0xA => .ok (.ldI f.nnn)
  | 0xB => .ok (.jpV0 f.nnn)
  | 0xC => .ok (.rnd f.x f.kk)
  | 0xD => .ok (.drw f.x f.y f.n)
  | 0xE => .error .familyE
  | 0xF => dispatchF f
  | ⟨k + 16, h⟩ => absurd h (by omega)

/-- Decoding is total on all 65536 words and looks at nothing but the word (R91, R102). -/
def decode (w : Word) : Except Illegal Instr := dispatch (Fields.ofWord w)

/-- The instruction word of two bytes, the byte at the lower address first (R63, R90). -/
def wordOfBytes (hi lo : Byte) : Word := BitVec.ofNat 16 (hi.toNat * 256 + lo.toNat)

/-- The two bytes of a word as they lie in memory: the high byte at the lower address (R63, R90). -/
def bytesOfWord (w : Word) : List Byte := [w.extractLsb' 8 8, w.extractLsb' 0 8]

/-- The instruction the decoder reads from the instruction whose bits are `w`, numbered as
spec/opcode_table.json numbers them. Instructions are one 16-bit word (R90), so bits at and above
`nbits` are dropped and the rest is that word, laid out high byte first and read back. -/
def decodeTableWord (nbits w : Nat) : Option Instr :=
  match bytesOfWord (BitVec.ofNat 16 (w % 2 ^ nbits)) with
  | [hi, lo] => (decode (wordOfBytes hi lo)).toOption
  | _ => none

/-- One row of the opcode map: a word `w` selects it when `(w & mask) = value` (R104). -/
structure OpcodeRow where
  value : Word
  mask  : Word
deriving DecidableEq, Repr

/-- The row's selection rule (R104). -/
def OpcodeRow.selects (r : OpcodeRow) (w : Word) : Bool := w &&& r.mask == r.value

/-- The row of the opcode map that an instruction's words select (R104). -/
def Instr.row : Instr → OpcodeRow
  | .cls => ⟨0x00E0, 0xFFFF⟩
  | .ret => ⟨0x00EE, 0xFFFF⟩
  | .exit => ⟨0x00FD, 0xFFFF⟩
  | .jp _ => ⟨0x1000, 0xF000⟩
  | .call _ => ⟨0x2000, 0xF000⟩
  | .seImm _ _ => ⟨0x3000, 0xF000⟩
  | .sneImm _ _ => ⟨0x4000, 0xF000⟩
  | .seReg _ _ => ⟨0x5000, 0xF00F⟩
  | .ldImm _ _ => ⟨0x6000, 0xF000⟩
  | .addImm _ _ => ⟨0x7000, 0xF000⟩
  | .ldReg _ _ => ⟨0x8000, 0xF00F⟩
  | .orReg _ _ => ⟨0x8001, 0xF00F⟩
  | .andReg _ _ => ⟨0x8002, 0xF00F⟩
  | .xorReg _ _ => ⟨0x8003, 0xF00F⟩
  | .addReg _ _ => ⟨0x8004, 0xF00F⟩
  | .subReg _ _ => ⟨0x8005, 0xF00F⟩
  | .shr _ _ => ⟨0x8006, 0xF00F⟩
  | .subnReg _ _ => ⟨0x8007, 0xF00F⟩
  | .shl _ _ => ⟨0x800E, 0xF00F⟩
  | .sneReg _ _ => ⟨0x9000, 0xF00F⟩
  | .ldI _ => ⟨0xA000, 0xF000⟩
  | .jpV0 _ => ⟨0xB000, 0xF000⟩
  | .rnd _ _ => ⟨0xC000, 0xF000⟩
  | .drw _ _ _ => ⟨0xD000, 0xF000⟩
  | .addI _ => ⟨0xF01E, 0xF0FF⟩
  | .storeRegs _ => ⟨0xF055, 0xF0FF⟩
  | .loadRegs _ => ⟨0xF065, 0xF0FF⟩

/-- The rows of the opcode map that are one family each or fixed words (R104). -/
def opcodeRowsPlain : List OpcodeRow :=
  [⟨0x00E0, 0xFFFF⟩, ⟨0x00EE, 0xFFFF⟩, ⟨0x00FD, 0xFFFF⟩, ⟨0x1000, 0xF000⟩, ⟨0x2000, 0xF000⟩,
   ⟨0x3000, 0xF000⟩, ⟨0x4000, 0xF000⟩, ⟨0x5000, 0xF00F⟩, ⟨0x6000, 0xF000⟩, ⟨0x7000, 0xF000⟩,
   ⟨0x9000, 0xF00F⟩, ⟨0xA000, 0xF000⟩, ⟨0xB000, 0xF000⟩, ⟨0xC000, 0xF000⟩, ⟨0xD000, 0xF000⟩]

/-- The rows of the opcode map with a sub-opcode: families 0x8 and 0xF (R104). -/
def opcodeRowsSub : List OpcodeRow :=
  [⟨0x8000, 0xF00F⟩, ⟨0x8001, 0xF00F⟩, ⟨0x8002, 0xF00F⟩, ⟨0x8003, 0xF00F⟩, ⟨0x8004, 0xF00F⟩,
   ⟨0x8005, 0xF00F⟩, ⟨0x8006, 0xF00F⟩, ⟨0x8007, 0xF00F⟩, ⟨0x800E, 0xF00F⟩,
   ⟨0xF01E, 0xF0FF⟩, ⟨0xF055, 0xF0FF⟩, ⟨0xF065, 0xF0FF⟩]

/-- The 27 rows of the complete opcode map (R104). -/
def opcodeMap : List OpcodeRow := opcodeRowsPlain ++ opcodeRowsSub

/-- Format NNN: `op`, then `nnn` (R92). -/
def packNNN (op : Fin 16) (nnn : Addr) : Word := BitVec.ofNat 16 (op.val * 4096 + nnn.toNat)

/-- Format XKK: `op`, `x`, `kk` (R92). -/
def packXKK (op : Fin 16) (x : Reg) (kk : Byte) : Word :=
  BitVec.ofNat 16 (op.val * 4096 + x.val * 256 + kk.toNat)

/-- Format XYN: `op`, `x`, `y`, `n` (R92). -/
def packXYN (op : Fin 16) (x y : Reg) (n : Count) : Word :=
  BitVec.ofNat 16 (op.val * 4096 + x.val * 256 + y.val * 16 + n.val)

/-- The encoder: the word of an instruction, from the formats and the opcode map (R92, R104). -/
def encode : Instr → Word
  | .cls => 0x00E0
  | .ret => 0x00EE
  | .exit => 0x00FD
  | .jp nnn => packNNN 0x1 nnn
  | .call nnn => packNNN 0x2 nnn
  | .seImm x kk => packXKK 0x3 x kk
  | .sneImm x kk => packXKK 0x4 x kk
  | .seReg x y => packXYN 0x5 x y 0x0
  | .ldImm x kk => packXKK 0x6 x kk
  | .addImm x kk => packXKK 0x7 x kk
  | .ldReg x y => packXYN 0x8 x y 0x0
  | .orReg x y => packXYN 0x8 x y 0x1
  | .andReg x y => packXYN 0x8 x y 0x2
  | .xorReg x y => packXYN 0x8 x y 0x3
  | .addReg x y => packXYN 0x8 x y 0x4
  | .subReg x y => packXYN 0x8 x y 0x5
  | .shr x y => packXYN 0x8 x y 0x6
  | .subnReg x y => packXYN 0x8 x y 0x7
  | .shl x y => packXYN 0x8 x y 0xE
  | .sneReg x y => packXYN 0x9 x y 0x0
  | .ldI nnn => packNNN 0xA nnn
  | .jpV0 nnn => packNNN 0xB nnn
  | .rnd x kk => packXKK 0xC x kk
  | .drw x y n => packXYN 0xD x y n
  | .addI x => packXKK 0xF x 0x1E
  | .storeRegs x => packXKK 0xF x 0x55
  | .loadRegs x => packXKK 0xF x 0x65

end Sys2Proof
end

