-- ==== Sys2Proof/Machine/Font.lean ====
section
/-! DEFINITION. The default font parameters of rule R242 (log entry 3: the spec marks the bytes as
general knowledge, and both values as defaults of OPEN parameters). -/

namespace Sys2Proof.Machine

open Sys2Proof

/-- Glyphs 0 to 3 of R242's table, five rows each. -/
def fontGlyphs0 : List Byte :=
  [0xF0, 0x90, 0x90, 0x90, 0xF0,  0x20, 0x60, 0x20, 0x20, 0x70,
   0xF0, 0x10, 0xF0, 0x80, 0xF0,  0xF0, 0x10, 0xF0, 0x10, 0xF0]

/-- Glyphs 4 to 7 of R242's table. -/
def fontGlyphs4 : List Byte :=
  [0x90, 0x90, 0xF0, 0x10, 0x10,  0xF0, 0x80, 0xF0, 0x10, 0xF0,
   0xF0, 0x80, 0xF0, 0x90, 0xF0,  0xF0, 0x10, 0x20, 0x40, 0x40]

/-- Glyphs 8 to B of R242's table. -/
def fontGlyphs8 : List Byte :=
  [0xF0, 0x90, 0xF0, 0x90, 0xF0,  0xF0, 0x90, 0xF0, 0x10, 0xF0,
   0xF0, 0x90, 0xF0, 0x90, 0x90,  0xE0, 0x90, 0xE0, 0x90, 0xE0]

/-- Glyphs C to F of R242's table. -/
def fontGlyphsC : List Byte :=
  [0xF0, 0x80, 0x80, 0x80, 0xF0,  0xE0, 0x90, 0x90, 0x90, 0xE0,
   0xF0, 0x80, 0xF0, 0x80, 0xF0,  0xF0, 0x80, 0xF0, 0x80, 0x80]

/-- The default `FONT`: 16 glyphs of 5 bytes (R242). -/
def defaultFontBytes : List Byte := fontGlyphs0 ++ fontGlyphs4 ++ fontGlyphs8 ++ fontGlyphsC

/-- The default font parameters, `FONT_BASE = 0x000` and the table above (R242). -/
def defaultFont : Config.FontParams where
  base  := 0
  bytes := ⟨⟨defaultFontBytes⟩, by decide⟩

end Sys2Proof.Machine
end

