-- ==== Sys2Proof/Machine/State.lean ====
section
/-! DEFINITION. The machine's state as plain data, its reset value, and the reasons a step can stop.

The fields are the spec's state tuple, item by item (10_state.md), and two fields of the model's own
for the random byte that the STEP event brings (log entries 1 and 2). -/

namespace Sys2Proof.Machine

open Sys2Proof

/-- The machine state MS (R30). -/
inductive MState where
  /-- the initial state: STEP executes an instruction -/
  | running
  /-- terminal: a fault stopped the machine -/
  | faulted
  /-- terminal: `0x00FD` stopped the machine -/
  | halted
deriving DecidableEq, Repr

/-- The fault cause CAUSE (R31, R201). -/
inductive Cause where
  /-- MS is not FAULTED -/
  | none
  /-- the fetched word matches no row of the opcode map -/
  | unknownInstruction
  /-- CALL with SP = 16 -/
  | stackOverflow
  /-- RET with SP = 0 -/
  | stackUnderflow
  /-- a fetch, sprite, store or load outside 0x000 to 0xFFF -/
  | addressOutOfRange
deriving DecidableEq, Repr

/-- Memory (R33, R60). `cells` lists the bytes that differ from what RESET leaves, by rising address;
an unlisted address reads as RESET left it (Machine/Memory.lean). `font` holds the machine's font
parameters, which no event changes (R5, R242; log entry 3). -/
structure Memory where
  font  : Config.FontParams
  cells : List Host.Cell
deriving DecidableEq, Repr

/-- The display D (R28): row `cy` is the `cy`-th entry, row 0 first, and pixel `D[cx][cy]` is bit
`cx` of it. -/
structure Display where
  rows : Vector (BitVec 64) 32
deriving DecidableEq, Repr

/-- The whole state of the block. -/
structure State where
  /-- general registers V[0] to V[15], V[15] being VF (R20, R21) -/
  v : Vector Byte 16
  /-- address register I (R22) -/
  i : Word
  /-- program counter PC (R23) -/
  pc : Word
  /-- stack pointer SP, the number of valid stack entries, 0 to 16 (R25) -/
  sp : Fin 17
  /-- return-address stack STK[0] to STK[15] (R24) -/
  stk : Vector Word 16
  /-- delay timer DT (R26) -/
  dt : Byte
  /-- sound timer ST (R27) -/
  st : Byte
  /-- display buffer D (R28) -/
  display : Display
  /-- redraw flag REDRAW (R29) -/
  redraw : Bool
  /-- machine state MS (R30) -/
  ms : MState
  /-- fault cause CAUSE (R31) -/
  cause : Cause
  /-- last fetched instruction word LAST (R32) -/
  last : Word
  /-- memory MEM (R33) -/
  mem : Memory
  /-- MODEL's own (log entry 2): the byte `r` of the STEP(r) event in progress, if the host has
  supplied one (R43) -/
  entropy : Option Byte
  /-- MODEL's own (log entry 1): how many random bytes have been drawn, the index of the next free
  value -/
  draws : Nat
deriving DecidableEq, Repr

/-- Why the machine could stop with a fault outside the spec's own fault mechanism: NEVER. Every
fault of the spec is a next state in which MS is FAULTED and CAUSE says why (R200 to R202, log
entry 5), so this type has no constructor and no step answers a fault. -/
inductive Fault : Type
deriving DecidableEq, Repr

/-- Why the model gives no meaning. -/
inductive Refusal where
  /-- Raised by an arm of `exec` whose instruction has no meaning yet; no arm does. Safe: the model
  stops where the hardware goes on. -/
  | notModelled (mnemonic : String)
  /-- Raised by the event LOAD after the first STEP or after a successful LOAD. The spec says that a
  model refuses the first, and of the second a LOAD that would succeed (R244, D19; log entry 20);
  DESIGN CHOICE: an image too large is refused there in the same way (log entry 28). Safe: the model
  stops where a host that breaks the precondition goes on. -/
  | loadOutOfOrder
deriving DecidableEq, Repr

/-- Every item of state at its value of R40, for a machine with the given font parameters. -/
def State.resetWith (font : Config.FontParams) : State where
  v := Vector.replicate 16 0
  i := 0
  pc := BitVec.ofNat 16 Config.progBase
  sp := 0
  stk := Vector.replicate 16 0
  dt := 0
  st := 0
  display := ⟨Vector.replicate 32 0⟩
  redraw := false
  ms := .running
  cause := .none
  last := 0
  mem := ⟨font, []⟩
  entropy := none
  draws := 0

/-- The machine right after reset (R40, R240), with the default font of R242 (log entry 3). -/
def State.reset : State := State.resetWith defaultFont

end Sys2Proof.Machine
end

