-- ==== Sys2Proof/Machine/Display.lean ====
section
/-! DEFINITION. The display engine: pixels, the XOR sprite blit (R181 to R183) and the snapshot
(R47, R213). -/

namespace Sys2Proof.Machine

open Sys2Proof

/-- The pixel `D[cx][cy]` (R28). -/
def Display.pixel (d : Display) (cx : Fin 64) (cy : Fin 32) : Bool := d.rows[cy.val].getLsbD cx.val

/-- `D[cx][cy] <- D[cx][cy] ^ 1`, every other pixel unchanged (R181). -/
def Display.toggle (d : Display) (cx : Fin 64) (cy : Fin 32) : Display :=
  ⟨d.rows.set cy.val (d.rows[cy.val] ^^^ BitVec.twoPow 64 cx.val)⟩

/-- Every pixel 0 (R121). -/
def Display.clear : Display := ⟨Vector.replicate 32 0⟩

/-- Sprite bits are MSB first: column offset `c` is bit `7 - c` (R181). -/
def spriteBit (b : Byte) (c : Nat) : Bool := b.getLsbD (7 - c)

/-- The display column of column offset `c` (R181, R182). -/
def spriteCol (x0 : Byte) (c : Nat) : Fin 64 := Fin.ofNat 64 (x0.toNat + c)

/-- The display row of sprite row `r` (R181, R182). -/
def spriteRow (y0 : Byte) (r : Nat) : Fin 32 := Fin.ofNat 32 (y0.toNat + r)

/-- A sprite draw in progress: the display so far and whether a pixel has gone from 1 to 0. -/
structure Blit where
  display   : Display
  collision : Bool
deriving DecidableEq, Repr

/-- Toggle one pixel and note whether it was lit (R181, R183). -/
def Blit.plot (b : Blit) (cx : Fin 64) (cy : Fin 32) : Blit :=
  ⟨b.display.toggle cx cy, b.collision || b.display.pixel cx cy⟩

/-- One column offset of a sprite row: only a set bit acts (R183). -/
def Blit.bit (x0 : Byte) (cy : Fin 32) (byte : Byte) (b : Blit) (c : Nat) : Blit :=
  if spriteBit byte c then b.plot (spriteCol x0 c) cy else b

/-- One sprite row: column offsets 0 to 7 (R181). -/
def Blit.row (x0 : Byte) (cy : Fin 32) (byte : Byte) (b : Blit) : Blit :=
  [0, 1, 2, 3, 4, 5, 6, 7].foldl (Blit.bit x0 cy byte) b

/-- The sprite rows from number `r` on (R181). -/
def Blit.rowsFrom (x0 y0 : Byte) (r : Nat) : List Byte → Blit → Blit
  | [], b => b
  | byte :: t, b => Blit.rowsFrom x0 y0 (r + 1) t (Blit.row x0 (spriteRow y0 r) byte b)

/-- Draw a sprite's rows with the top left corner at column `x0`, row `y0`: the new display, and
whether any pixel went from 1 to 0 (R180, R181). -/
def Display.draw (d : Display) (x0 y0 : Byte) (sprite : List Byte) : Blit :=
  Blit.rowsFrom x0 y0 0 sprite ⟨d, false⟩

/-- The rows as one number, row 0 lowest. -/
def rowsToNat : List (BitVec 64) → Nat
  | [] => 0
  | r :: t => r.toNat + 2 ^ 64 * rowsToNat t

/-- The output `display_snapshot`: bit `cy * 64 + cx` is `D[cx][cy]` (R47, R213). -/
def Display.snapshot (d : Display) : BitVec 2048 := BitVec.ofNat 2048 (rowsToNat d.rows.toList)

end Sys2Proof.Machine
end

