-- ==== Sys2Proof/Machine/Flags.lean ====
section
/-! DEFINITION. The flag computations (R160) and the results they go with. VF is written with the
value 0 or 1 (R21). -/

namespace Sys2Proof.Machine

open Sys2Proof

/-- A flag as the value VF receives: 1 or 0 (R21). -/
def flagByte (f : Bool) : Byte := if f then 1 else 0

/-- `0x8xy4`: carry out, the true sum is above 255 (R160, R165). -/
def carryOut (a b : Byte) : Bool := decide (a.toNat + b.toNat > 255)

/-- `0x8xy5` and `0x8xy7`: no borrow, the minuend is not below the subtrahend (R160, R166, R168). -/
def noBorrow (minuend subtrahend : Byte) : Bool := decide (minuend.toNat ≥ subtrahend.toNat)

/-- `0x8xy6`: the bit shifted out at the bottom (R160, R167). -/
def shiftedOutLow (a : Byte) : Bool := a.getLsbD 0

/-- `0x8xyE`: the bit shifted out at the top (R160, R169). -/
def shiftedOutHigh (a : Byte) : Bool := a.getLsbD 7

/-- The logical shift right by one bit (R167). -/
def shiftRightOne (a : Byte) : Byte := a >>> 1

/-- The shift left by one bit, modulo 256 (R169). -/
def shiftLeftOne (a : Byte) : Byte := a <<< 1

end Sys2Proof.Machine
end

