-- ==== Sys2Proof/Machine/Memory.lean ====
section
/-! DEFINITION. Memory: what an unlisted address reads as, the primitives MemRead and MemWrite of
one byte (R62), and the transfers of several bytes made of them (R63, R65). -/

namespace Sys2Proof.Machine

open Sys2Proof

/-- What an address that `cells` does not list reads as: the byte RESET leaves there, FONT at
FONT_BASE and zero everywhere else (R40, R242; log entry 4). -/
def Memory.background (m : Memory) (a : Nat) : Byte :=
  if h : m.font.base.val ≤ a ∧ a < m.font.base.val + 80 then
    m.font.bytes[a - m.font.base.val]'(by omega)
  else 0

/-- The byte listed for an address, if one is. -/
def lookupCell (a : Nat) : List Host.Cell → Option Byte
  | [] => none
  | c :: t => if c.1 = a then some c.2 else lookupCell a t

/-- List a byte for an address that is not listed, keeping the addresses rising. -/
def insertCell (a : Nat) (b : Byte) : List Host.Cell → List Host.Cell
  | [] => [(a, b)]
  | c :: t => if a < c.1 then (a, b) :: c :: t else c :: insertCell a b t

/-- The byte at an address inside memory. -/
def Memory.get (m : Memory) (a : Nat) : Byte := (lookupCell a m.cells).getD (m.background a)

/-- Memory with one byte changed, in canonical form: a byte equal to the background is not listed. -/
def Memory.set (m : Memory) (a : Nat) (b : Byte) : Memory :=
  let rest := m.cells.filter (fun c => c.1 ≠ a)
  { m with cells := if m.background a = b then rest else insertCell a b rest }

/-- The canonical form: addresses strictly rising, inside memory, and no byte equal to what its
address reads as when unlisted. -/
abbrev Memory.wf (m : Memory) : Prop :=
  m.cells.Pairwise (fun c d => c.1 < d.1) ∧
  ∀ c ∈ m.cells, c.1 < Config.memSize ∧ m.background c.1 ≠ c.2

/-- `MemRead(a, 1)` (R10, R62): the byte, or nothing where the spec raises `AddressOutOfRange`. -/
def Memory.read (m : Memory) (a : Nat) : Option Byte :=
  if a < Config.memSize then some (m.get a) else none

/-- `MemWrite(a, 1, b)` (R10, R62): the new memory, or nothing where the spec raises
`AddressOutOfRange`. -/
def Memory.write (m : Memory) (a : Nat) (b : Byte) : Option Memory :=
  if a < Config.memSize then some (m.set a b) else none

/-- `n` byte reads at ascending addresses from `a` (R63, R65), or nothing if one of them is out of
range: the check on all the bytes comes before any effect (R10, R68). -/
def Memory.readRange (m : Memory) (a : Nat) : Nat → Option (List Byte)
  | 0 => some []
  | n + 1 =>
    match m.read a with
    | none => none
    | some b =>
      match m.readRange (a + 1) n with
      | none => none
      | some bs => some (b :: bs)

/-- Byte writes at ascending addresses from `a` (R63, R65), or nothing if one of them is out of
range: then no byte is written (R10, R68). -/
def Memory.writeRange (m : Memory) (a : Nat) : List Byte → Option Memory
  | [] => some m
  | b :: bs =>
    match m.write a b with
    | none => none
    | some m' => m'.writeRange (a + 1) bs

end Sys2Proof.Machine
end

