-- ==== Sys2Proof/Machine/Operands.lean ====
section
/-! DEFINITION. The operand forms: registers, the data address `I + k` (R190), register ranges
(R192, R193) and the random byte (R154). Immediates are widened by zeros (Word.lean, R93). -/

namespace Sys2Proof.Machine

open Sys2Proof

/-- `V[r]` as an operand (R8, R20). -/
def State.reg (s : State) (r : Reg) : Byte := s.v[r.val]

/-- VF, the same cell as `V[15]` (R21). -/
def State.vf (s : State) : Byte := s.reg Reg.vf

/-- The data address `I + k` (R190): an unbounded number, so that a sum above 0xFFF stays out of
range (R10, R62). -/
def State.dataAddr (s : State) (k : Nat) : Nat := s.i.toNat + k

/-- The values of `V[0]` to `V[x]`, ascending (R192). -/
def State.regsUpTo (s : State) (x : Reg) : List Byte := s.v.toList.take (x.val + 1)

/-- Registers with bytes written ascending from number `k` (R193). -/
def loadRegsFrom (v : Vector Byte 16) (k : Nat) : List Byte → Vector Byte 16
  | [] => v
  | b :: bs => loadRegsFrom (v.setIfInBounds k b) (k + 1) bs

/-- The random byte of this STEP: the one the host supplied with the event, or else a free value,
one of its own for each draw (R34, R43, R154; log entries 1 and 2). -/
def State.randomByte (s : State) : Byte := s.entropy.getD (Config.randomByte s.draws)

end Sys2Proof.Machine
end

