-- ==== Sys2Proof/Machine/Ops.lean ====
section
/-! DEFINITION. The named operations the meanings are made of: register writes, the program counter,
the stack, the display, the fetch, and fault entry. There is no return from a fault (R203): only the
event RESET leaves a terminal state (Machine/Events.lean). -/

namespace Sys2Proof.Machine

open Sys2Proof

/-- What one STEP, or one meaning, answers. -/
abbrev Result := Host.Outcome State Fault Refusal

/-- `V[r] <- b` (R8, R20). -/
def State.setReg (s : State) (r : Reg) (b : Byte) : State := { s with v := s.v.set r.val b }

/-- `I <- w` (R22). -/
def State.setI (s : State) (w : Word) : State := { s with i := w }

/-- `PC <- w` (R8, R23). -/
def State.setPc (s : State) (w : Word) : State := { s with pc := w }

/-- `LAST <- w` (R32). -/
def State.setLast (s : State) (w : Word) : State := { s with last := w }

/-- The memory after an instruction's writes (R62). -/
def State.setMem (s : State) (m : Memory) : State := { s with mem := m }

/-- The register file after a range of registers is loaded (R193). -/
def State.setRegs (s : State) (v : Vector Byte 16) : State := { s with v := v }

/-- `MS <- HALTED` (R123). -/
def State.halt (s : State) : State := { s with ms := .halted }

/-- The byte at hand for this STEP (R43; log entry 2). -/
def State.setEntropy (s : State) (r : Option Byte) : State := { s with entropy := r }

/-- The random byte is used up: the supplied byte is gone, and the next free value is another one
(R34, R154; log entries 1 and 2). -/
def State.useDraw (s : State) : State := { s with entropy := none, draws := s.draws + 1 }

/-- The default advance `PC <- (PC + 2) mod 65536` (R13). -/
def State.advance (s : State) : State := s.setPc (s.pc + 2)

/-- A conditional skip: `PC + 4` if the condition holds, else `PC + 2` (R13, R133). -/
def State.skipIf (s : State) (c : Bool) : State := if c then s.setPc (s.pc + 4) else s.advance

/-- VF is written with the flag, then `V[x]` with the result, so that with `x = 15` the result
remains (R11, R171; log entry 13). -/
def State.setFlagThenReg (s : State) (flag : Bool) (x : Reg) (result : Byte) : State :=
  (s.setReg Reg.vf (flagByte flag)).setReg x result

/-- Push a return address: `STK[SP] <- w; SP <- SP + 1`, or nothing if SP is 16 (R25, R132). -/
def State.push (s : State) (w : Word) : Option State :=
  if h : s.sp.val < Config.stackDepth then
    some { s with stk := s.stk.set s.sp.val w, sp := ⟨s.sp.val + 1, Nat.succ_lt_succ h⟩ }
  else none

/-- Pop a return address: `SP <- SP - 1`, then read `STK[SP]`, which keeps its contents; nothing if
SP is 0 (R25, R122). -/
def State.pop (s : State) : Option (Word × State) :=
  if h : s.sp.val = 0 then none
  else some (s.stk[s.sp.val - 1]'(by omega), { s with sp := ⟨s.sp.val - 1, by omega⟩ })

/-- A finished draw: the new display and `REDRAW <- 1` (R29, R121, R181). -/
def State.showDisplay (s : State) (d : Display) : State := { s with display := d, redraw := true }

/-- FAULT ENTRY (R202): `MS <- FAULTED; CAUSE <- c`, and nothing else changes. PC keeps the faulting
instruction's address; LAST already holds its word if the fetch completed (R205). -/
def State.enterFault (s : State) (c : Cause) : State := { s with ms := .faulted, cause := c }

/-- `raise Fault(c)` (R10): the instruction ends in the fault-entry state, which is a next state. -/
def raiseFault (c : Cause) (s : State) : Result := .next (s.enterFault c)

/-- The instruction word at PC, big-endian, or nothing if a byte of it is out of range, that is if
`PC > 0xFFE` (R63, R68, R205). -/
def State.fetch (s : State) : Option Word :=
  match s.mem.read s.pc.toNat with
  | none => none
  | some hi =>
    match s.mem.read (s.pc.toNat + 1) with
    | none => none
    | some lo => some (wordOfBytes hi lo)

/-- The instruction's bytes stored where the next fetch reads them, high byte first (R63); where PC
cannot be fetched from, nothing is stored (log entry 24). -/
def State.placeWord (s : State) (w : Word) : State :=
  match s.mem.writeRange s.pc.toNat (bytesOfWord w) with
  | none => s
  | some m => s.setMem m

end Sys2Proof.Machine
end

