-- ==== Sys2Proof/Machine/Alu.lean ====
section
/-! DEFINITION. Family 0x8: register-to-register ALU operations (43_alu.md). Operands are read before
anything is written (R11, R171); every instruction ends with the default advance (R170). -/

namespace Sys2Proof.Machine

open Sys2Proof

/-- `0x8xy0` LD Vx, Vy (R161). -/
def execLdReg (x y : Reg) (s : State) : Result := .next (s.setReg x (s.reg y)).advance

/-- `0x8xy1` OR Vx, Vy (R162). -/
def execOrReg (x y : Reg) (s : State) : Result := .next (s.setReg x (s.reg x ||| s.reg y)).advance

/-- `0x8xy2` AND Vx, Vy (R163). -/
def execAndReg (x y : Reg) (s : State) : Result := .next (s.setReg x (s.reg x &&& s.reg y)).advance

/-- `0x8xy3` XOR Vx, Vy (R164). -/
def execXorReg (x y : Reg) (s : State) : Result := .next (s.setReg x (s.reg x ^^^ s.reg y)).advance

/-- `0x8xy4` ADD Vx, Vy (R165). -/
def execAddReg (x y : Reg) (s : State) : Result :=
  .next (s.setFlagThenReg (carryOut (s.reg x) (s.reg y)) x (s.reg x + s.reg y)).advance

/-- `0x8xy5` SUB Vx, Vy (R166). -/
def execSubReg (x y : Reg) (s : State) : Result :=
  .next (s.setFlagThenReg (noBorrow (s.reg x) (s.reg y)) x (s.reg x - s.reg y)).advance

/-- `0x8xy6` SHR Vx (R167): `y` is not used. -/
def execShr (x _y : Reg) (s : State) : Result :=
  .next (s.setFlagThenReg (shiftedOutLow (s.reg x)) x (shiftRightOne (s.reg x))).advance

/-- `0x8xy7` SUBN Vx, Vy (R168). -/
def execSubnReg (x y : Reg) (s : State) : Result :=
  .next (s.setFlagThenReg (noBorrow (s.reg y) (s.reg x)) x (s.reg y - s.reg x)).advance

/-- `0x8xyE` SHL Vx (R169): `y` is not used. -/
def execShl (x _y : Reg) (s : State) : Result :=
  .next (s.setFlagThenReg (shiftedOutHigh (s.reg x)) x (shiftLeftOne (s.reg x))).advance

end Sys2Proof.Machine
end

