-- ==== Sys2Proof/Machine/Control.lean ====
section
/-! DEFINITION. Control transfer: jump, call, conditional skips, indexed jump
(41_jump_call_skip.md). Targets are not checked when the transfer executes (R130). -/

namespace Sys2Proof.Machine

open Sys2Proof

/-- `0x1nnn` JP nnn (R131). -/
def execJp (nnn : Addr) (s : State) : Result := .next (s.setPc nnn.zext16)

/-- `0x2nnn` CALL nnn (R132): pushes the address of the call itself. -/
def execCall (nnn : Addr) (s : State) : Result :=
  match s.push s.pc with
  | none => raiseFault .stackOverflow s
  | some t => .next (t.setPc nnn.zext16)

/-- `0x3xkk` SE Vx, kk (R133). -/
def execSeImm (x : Reg) (kk : Byte) (s : State) : Result := .next (s.skipIf (s.reg x == kk))

/-- `0x4xkk` SNE Vx, kk (R134). -/
def execSneImm (x : Reg) (kk : Byte) (s : State) : Result := .next (s.skipIf (s.reg x != kk))

/-- `0x5xy0` SE Vx, Vy (R135). -/
def execSeReg (x y : Reg) (s : State) : Result := .next (s.skipIf (s.reg x == s.reg y))

/-- `0x9xy0` SNE Vx, Vy (R136). -/
def execSneReg (x y : Reg) (s : State) : Result := .next (s.skipIf (s.reg x != s.reg y))

/-- `0xBnnn` JP V0, nnn (R137): the sum is kept in full. -/
def execJpV0 (nnn : Addr) (s : State) : Result :=
  .next (s.setPc (nnn.zext16 + (s.reg 0).zext16))

end Sys2Proof.Machine
end

