-- ==== Sys2Proof/Machine/Draw.lean ====
section
/-! DEFINITION. Family 0xD: sprite draw (44_draw.md). -/

namespace Sys2Proof.Machine

open Sys2Proof

/-- `0xDxyn` DRW Vx, Vy, n (R181): the coordinates are read before VF is written (R11, R185), and
the sprite's bytes before anything is. -/
def execDrw (x y : Reg) (n : Count) (s : State) : Result :=
  match s.mem.readRange (s.dataAddr 0) n.val with
  | none => raiseFault .addressOutOfRange s
  | some sprite =>
    let b := s.display.draw (s.reg x) (s.reg y) sprite
    .next ((s.setReg Reg.vf (flagByte b.collision)).showDisplay b.display).advance

end Sys2Proof.Machine
end

