-- ==== Sys2Proof/Machine/Immediate.lean ====
section
/-! DEFINITION. Immediate loads, immediate add, random (42_immediate_random.md). -/

namespace Sys2Proof.Machine

open Sys2Proof

/-- `0x6xkk` LD Vx, kk (R151). -/
def execLdImm (x : Reg) (kk : Byte) (s : State) : Result := .next (s.setReg x kk).advance

/-- `0x7xkk` ADD Vx, kk (R152): no flag. -/
def execAddImm (x : Reg) (kk : Byte) (s : State) : Result :=
  .next (s.setReg x (s.reg x + kk)).advance

/-- `0xAnnn` LD I, nnn (R153). -/
def execLdI (nnn : Addr) (s : State) : Result := .next (s.setI nnn.zext16).advance

/-- `0xCxkk` RND Vx, kk (R154). -/
def execRnd (x : Reg) (kk : Byte) (s : State) : Result :=
  .next (s.setReg x (s.randomByte &&& kk)).useDraw.advance

end Sys2Proof.Machine
end

