-- ==== Sys2Proof/Machine/IndexMemory.lean ====
section
/-! DEFINITION. Family 0xF: address-register add, register store and load (45_index_memory.md). I is
not changed by a transfer (R190). -/

namespace Sys2Proof.Machine

open Sys2Proof

/-- `0xFx1E` ADD I, Vx (R191): wraps modulo 65536, VF is not written (log entry 16). -/
def execAddI (x : Reg) (s : State) : Result := .next (s.setI (s.i + (s.reg x).zext16)).advance

/-- `0xFx55` LD [I], Vx (R192). -/
def execStoreRegs (x : Reg) (s : State) : Result :=
  match s.mem.writeRange (s.dataAddr 0) (s.regsUpTo x) with
  | none => raiseFault .addressOutOfRange s
  | some m => .next (s.setMem m).advance

/-- `0xFx65` LD Vx, [I] (R193). -/
def execLoadRegs (x : Reg) (s : State) : Result :=
  match s.mem.readRange (s.dataAddr 0) (x.val + 1) with
  | none => raiseFault .addressOutOfRange s
  | some bs => .next (s.setRegs (loadRegsFrom s.v 0 bs)).advance

end Sys2Proof.Machine
end

