-- ==== Sys2Proof/Machine/System.lean ====
section
/-! DEFINITION. Family 0x0: clear display, return, exit (40_op0_system.md). -/

namespace Sys2Proof.Machine

open Sys2Proof

/-- `0x00E0` CLS (R121). -/
def execCls (s : State) : Result := .next (s.showDisplay Display.clear).advance

/-- `0x00EE` RET (R122): the stack holds the call's own address, so the return adds 2. -/
def execRet (s : State) : Result :=
  match s.pop with
  | none => raiseFault .stackUnderflow s
  | some (w, t) => .next (t.setPc (w + 2))

/-- `0x00FD` EXIT (R123): PC keeps the address of the word (log entry 15). -/
def execExit (s : State) : Result := .next s.halt

end Sys2Proof.Machine
end

