-- ==== Sys2Proof/Machine/Step.lean ====
section
/-! DEFINITION. One STEP of the machine (R205), and the placing of an instruction where the next STEP
fetches it. -/

namespace Sys2Proof.Machine

open Sys2Proof

/-- STEP in full (R205): a terminal state is left as it is; a fetch out of range faults with LAST
unchanged; otherwise LAST takes the word, and the word is decoded and executed. The byte `r` of the
event STEP(r) is in the state's `entropy` (Machine/Events.lean). -/
def step (s : State) : Host.Outcome State Fault Refusal :=
  match s.ms with
  | .faulted => .next s
  | .halted => .next s
  | .running =>
    match s.fetch with
    | none => raiseFault .addressOutOfRange s
    | some w =>
      match decode w with
      | .error _ => raiseFault .unknownInstruction (s.setLast w)
      | .ok i => exec i (s.setLast w)

/-- The instruction whose bits are `w` stored at PC, where `step` fetches its next instruction. -/
def State.withFetchWord (s : State) (nbits w : Nat) : State :=
  s.placeWord (BitVec.ofNat 16 (w % 2 ^ nbits))

end Sys2Proof.Machine
end

