-- ==== Sys2Proof/Machine/Outputs.lean ====
section
/-! DEFINITION. The six outputs (R47): pure functions of the state, and the codes they use. -/

namespace Sys2Proof.Machine

open Sys2Proof

/-- The 2-bit code of MS: RUNNING 0, FAULTED 1, HALTED 2 (R30, R47; log entry 10). -/
def MState.code : MState → BitVec 2
  | .running => 0
  | .faulted => 1
  | .halted => 2

/-- The 3-bit code of CAUSE (R201; log entry 10). -/
def Cause.code : Cause → BitVec 3
  | .none => 0
  | .unknownInstruction => 1
  | .stackOverflow => 2
  | .stackUnderflow => 3
  | .addressOutOfRange => 4

/-- Output `state` (R47). -/
def State.outState (s : State) : BitVec 2 := s.ms.code

/-- Output `fault_cause` (R47). -/
def State.outFaultCause (s : State) : BitVec 3 := s.cause.code

/-- Output `last_instr` (R47). -/
def State.outLastInstr (s : State) : Word := s.last

/-- Output `redraw_pending` (R47, R212). -/
def State.outRedrawPending (s : State) : BitVec 1 := if s.redraw then 1 else 0

/-- Output `display_snapshot` (R47, R213). -/
def State.outDisplaySnapshot (s : State) : BitVec 2048 := s.display.snapshot

/-- Output `sound_active`: 1 exactly when ST is above 0 (R27, R47, R209). -/
def State.outSoundActive (s : State) : BitVec 1 := if s.st.toNat > 0 then 1 else 0

end Sys2Proof.Machine
end

