-- ==== Sys2Proof/Machine/Events.lean ====
section
/-! DEFINITION. The block's five events (R41 to R46): RESET, LOAD, STEP(r), TICK, CONSUME_REDRAW, and
the block as a machine of events with the boot order of R44 and R244. -/

namespace Sys2Proof.Machine

open Sys2Proof

/-- RESET (R42, R240): every item of the spec's state at its value of R40. The font parameters are
the machine's own and stay; the free values drawn before are not drawn again (log entry 25). -/
def State.onReset (s : State) : State :=
  { State.resetWith s.mem.font with draws := s.draws }

/-- LOAD (R243): nothing if the image has 3584 bytes or more (`ProgramTooLarge`), else the image
copied to 0x200 and up. -/
def State.load (s : State) (bytes : List Byte) : Option State :=
  if bytes.length < Config.loadLimit then
    match s.mem.writeRange Config.progBase bytes with
    | none => none
    | some m => some (s.setMem m)
  else none

/-- One tick of one timer: down by 1, staying at 0 (R208). -/
def tickTimer (t : Byte) : Byte := if t.toNat > 0 then t - 1 else t

/-- TICK (R208): the two timers, each on its own, in every machine state (log entry 19). -/
def State.tick (s : State) : State := { s with dt := tickTimer s.dt, st := tickTimer s.st }

/-- CONSUME_REDRAW (R46, R212): `REDRAW <- 0`. -/
def State.consumeRedraw (s : State) : State := { s with redraw := false }

/-- STEP(r) (R43): one step with the byte `r` at hand, which is gone when the step is over, used or
not (log entry 2). -/
def stepWith (r : Byte) (s : State) : Result :=
  match step (s.setEntropy (some r)) with
  | .next t => .next (t.setEntropy none)
  | .fault f => .fault f
  | .refused e => .refused e

/-- An event (R41 to R46). -/
inductive Event where
  /-- RESET -/
  | reset
  /-- LOAD(bytes) -/
  | load (bytes : List Byte)
  /-- STEP(r) -/
  | step (r : Byte)
  /-- TICK -/
  | tick
  /-- CONSUME_REDRAW -/
  | consumeRedraw
deriving DecidableEq, Repr

/-- How far the boot order has come since RESET (R44, R244; log entry 20). -/
inductive Phase where
  /-- no successful LOAD and no STEP yet -/
  | fresh
  /-- one successful LOAD, no STEP yet -/
  | loaded
  /-- a STEP has been issued -/
  | started
deriving DecidableEq, Repr

/-- The block between two events. -/
structure Block where
  phase : Phase
  state : State
deriving DecidableEq, Repr

/-- What an event returns to the host: nothing, MS after a STEP (R43), or LOAD's result (R243). -/
inductive Reply where
  /-- RESET, TICK and CONSUME_REDRAW return nothing -/
  | done
  /-- STEP returns MS -/
  | status (ms : MState)
  /-- LOAD copied the image -/
  | loadOk
  /-- LOAD refused the image and changed nothing (R214) -/
  | programTooLarge
deriving DecidableEq, Repr

/-- The block right after its first RESET (R41: an execution begins with RESET), for a machine with
the given font parameters. -/
def Block.afterReset (font : Config.FontParams) : Block := ⟨.fresh, State.resetWith font⟩

/-- The event LOAD in a phase: legal only before the first STEP and the first success (R44, R244; log
entry 20). DESIGN CHOICE (log entry 28): after a success every LOAD is refused, an image of 3584 bytes
or more too, where R244 names only a second successful LOAD and R243 would give `ProgramTooLarge`. -/
def Block.onLoad (b : Block) (bytes : List Byte) : Host.Outcome (Block × Reply) Fault Refusal :=
  match b.phase with
  | .loaded => .refused .loadOutOfOrder
  | .started => .refused .loadOutOfOrder
  | .fresh =>
    match b.state.load bytes with
    | none => .next (b, .programTooLarge)
    | some s => .next (⟨.loaded, s⟩, .loadOk)

/-- The event STEP(r) (R43). -/
def Block.onStep (b : Block) (r : Byte) : Host.Outcome (Block × Reply) Fault Refusal :=
  match stepWith r b.state with
  | .next s => .next (⟨.started, s⟩, .status s.ms)
  | .fault f => .fault f
  | .refused e => .refused e

/-- One event of the block (R41: events are serialised and atomic). -/
def Block.handle (b : Block) : Event → Host.Outcome (Block × Reply) Fault Refusal
  | .reset => .next (⟨.fresh, b.state.onReset⟩, .done)
  | .load bytes => b.onLoad bytes
  | .step r => b.onStep r
  | .tick => .next (⟨b.phase, b.state.tick⟩, .done)
  | .consumeRedraw => .next (⟨b.phase, b.state.consumeRedraw⟩, .done)

end Sys2Proof.Machine
end

