-- ==== Sys2Proof/Safety.lean ====
section
/-! DEFINITION. What claims about the machine speak of: terminal states, the state invariant (R35),
reachability by events, and the frame: what an instruction leaves unchanged (R12). -/

namespace Sys2Proof.Machine

open Sys2Proof

/-- MS is FAULTED or HALTED (R14, R30): no further STEP changes anything. -/
abbrev State.terminal (s : State) : Prop := s.ms ≠ .running

/-- The state invariant (R31, R35 and log entry 4): memory is in canonical form, and MS is FAULTED
exactly when CAUSE names a fault. That SP is 0 to 16 and each pixel one bit, their types say. -/
abbrev State.Inv (s : State) : Prop := s.mem.wf ∧ (s.ms = .faulted ↔ s.cause ≠ .none)

/-- What a block keeps over every event (R35, R211): the state invariant, both timers at 0, and the
machine's font parameters. -/
def Block.RestInv (font : Config.FontParams) (b : Block) : Prop :=
  b.state.Inv ∧ b.state.dt = 0 ∧ b.state.st = 0 ∧ b.state.mem.font = font

/-- The blocks that events reach from the first RESET (R35, R41). -/
inductive Block.Reachable (font : Config.FontParams) : Block → Prop where
  | start : Block.Reachable font (Block.afterReset font)
  | event (b b' : Block) (e : Event) (r : Reply) :
      Block.Reachable font b → b.handle e = .next (b', r) → Block.Reachable font b'

/-- The word is a legal instruction (R94). -/
def Legal (w : Word) : Prop := ∃ i, decode w = .ok i

/-- A STEP that fetches the word faults with UnknownInstruction (R94, R101): LAST takes the word, MS
and CAUSE change, and nothing else. -/
def FaultsAsUnknown (w : Word) : Prop :=
  ∀ s : State, s.ms = .running → s.fetch = some w →
    step s = .next { s with last := w, ms := .faulted, cause := .unknownInstruction }

/-- The sprite that `0xDxyn` draws reaches pixel `(cx, cy)` with a set bit: bit `7 - c` of the byte
at `I + r`, at column `(Vx + c) mod 64`, row `(Vy + r) mod 32` (R181, R182). -/
def State.DrawHits (s : State) (x y : Reg) (n : Count) (cx : Fin 64) (cy : Fin 32) : Prop :=
  ∃ r < n.val, ∃ c < 8, ∃ b, s.mem.read (s.i.toNat + r) = some b ∧ b.getLsbD (7 - c) = true ∧
    cx.val = ((s.reg x).toNat + c) % 64 ∧ cy.val = ((s.reg y).toNat + r) % 32

/-- Every byte of memory reads the same in both states, as does every byte out of range. -/
def State.SameMem (s t : State) : Prop :=
  t.mem.font = s.mem.font ∧ ∀ a : Nat, t.mem.read a = s.mem.read a

/-- Every register outside the list is the same in both states. -/
def State.SameRegsBut (rs : List Reg) (s t : State) : Prop := ∀ r : Reg, r ∉ rs → t.reg r = s.reg r

/-- SP and every stack cell are the same in both states. -/
def State.SameStack (s t : State) : Prop := t.sp = s.sp ∧ t.stk = s.stk

/-- Every pixel and the redraw flag are the same in both states. -/
def State.SameDisplay (s t : State) : Prop :=
  (∀ cx cy, t.display.pixel cx cy = s.display.pixel cx cy) ∧ t.redraw = s.redraw

/-- The timers are the same in both states. -/
def State.SameTimers (s t : State) : Prop := t.dt = s.dt ∧ t.st = s.st

/-- MS, CAUSE and LAST are the same in both states. -/
def State.SameControl (s t : State) : Prop := t.ms = s.ms ∧ t.cause = s.cause ∧ t.last = s.last

/-- The model's own record of random draws is the same in both states. -/
def State.SameDraws (s t : State) : Prop := t.entropy = s.entropy ∧ t.draws = s.draws

/-- Nothing outside the named registers, PC and I changes. -/
def State.OnlyRegs (rs : List Reg) (s t : State) : Prop :=
  s.SameRegsBut rs t ∧ s.SameStack t ∧ s.SameDisplay t ∧ s.SameTimers t ∧ s.SameControl t ∧
  s.SameMem t ∧ s.SameDraws t

end Sys2Proof.Machine
end

