-- ==== Sys2Proof/Certificates/Slice0/Obligations.lean ====
section
/-! DEFINITION. The statements about the model, from the spec's numbered rules. "Dn" is a decision of
92_eei_decisions.md: where a statement rests on one, its docstring says so and names the log entry.
Each statement of an instruction's result also states its frame (R12, R120); in a frame `SameDraws`
speaks of the model's own two fields (log entries 1 and 2), which no rule of the spec names. -/

open Sys2Proof Sys2Proof.Machine

/-! ## Decoding -/

/-- Words written out from the opcode map decode to the instructions they stand for, and words that
match no row to none (R95 to R99, R104, R105; that 0x01E0, 0x5121 and 0x9AB1 are illegal is the
spec's D10 and D11, log entry 14). -/
def Obligations.SpecWordsDecode : Prop :=
  decode 0x637F = .ok (.ldImm 3 0x7F) ∧ decode 0x8AB4 = .ok (.addReg 0xA 0xB) ∧
  decode 0xD015 = .ok (.drw 0 1 5) ∧ decode 0xF255 = .ok (.storeRegs 2) ∧
  decode 0x22A0 = .ok (.call 0x2A0) ∧ decode 0x00FD = .ok .exit ∧
  decode 0x1234 = .ok (.jp 0x234) ∧ decode 0x9AB0 = .ok (.sneReg 0xA 0xB) ∧
  decode 0x81FE = .ok (.shl 1 0xF) ∧ decode 0xBFFF = .ok (.jpV0 0xFFF) ∧
  decode 0xC10F = .ok (.rnd 1 0x0F) ∧ decode 0xFF65 = .ok (.loadRegs 0xF) ∧
  decode 0x0000 = .error .family0 ∧ decode 0x01E0 = .error .family0 ∧
  decode 0x5121 = .error .family5 ∧ decode 0x8AB8 = .error .family8 ∧
  decode 0x9AB1 = .error .family9 ∧ decode 0xE09E = .error .familyE ∧
  decode 0xF007 = .error .familyF

/-- Decoding and encoding are inverse: a word decodes to an instruction exactly when it is that
instruction's word, with every operand at every value, so no bit of an encoding is dropped and no two
words decode to one instruction (R91, R92, R104). -/
def Obligations.DecodeInvertsEncode : Prop :=
  ∀ (w : Word) (i : Instr), decode w = .ok i ↔ encode i = w

/-- A word decodes to an instruction exactly when it matches a row of the opcode map; the row is that
instruction's own, and it is the only one (R94, R104). -/
def Obligations.LegalExactlyWhenOneRowSelects : Prop :=
  (∀ w : Word, Legal w ↔ ∃ r ∈ opcodeMap, r.selects w = true) ∧
  (∀ (w : Word) (i : Instr), decode w = .ok i → i.row ∈ opcodeMap ∧
    ∀ r ∈ opcodeMap, r.selects w = true ↔ r = i.row)

/-- The families whose legal words the source's table fixes: family 8 by `n`, family F by `kk`, none
of family E, all of the ten plain families, one instruction each; the other words fault as unknown;
and `y` is not used by SHR and SHL, so that all 16 values of it give one instruction's effect (R96,
R97, R99, R100). -/
def Obligations.FamilyLegality : Prop :=
  (∀ w : Word, (Fields.ofWord w).op = 8 →
    ((Fields.ofWord w).n ∈ [0, 1, 2, 3, 4, 5, 6, 7, 0xE] → Legal w) ∧
    ((Fields.ofWord w).n ∉ [0, 1, 2, 3, 4, 5, 6, 7, 0xE] → FaultsAsUnknown w)) ∧
  (∀ w : Word, (Fields.ofWord w).op = 0xF →
    ((Fields.ofWord w).kk ∈ [0x1E, 0x55, 0x65] → Legal w) ∧
    ((Fields.ofWord w).kk ∉ [0x1E, 0x55, 0x65] → FaultsAsUnknown w)) ∧
  (∀ w : Word, (Fields.ofWord w).op = 0xE → FaultsAsUnknown w) ∧
  (∀ (w : Word) (f : Fields), Fields.ofWord w = f →
    (f.op = 0x1 → decode w = .ok (.jp f.nnn)) ∧ (f.op = 0x2 → decode w = .ok (.call f.nnn)) ∧
    (f.op = 0x3 → decode w = .ok (.seImm f.x f.kk)) ∧
    (f.op = 0x4 → decode w = .ok (.sneImm f.x f.kk)) ∧
    (f.op = 0x6 → decode w = .ok (.ldImm f.x f.kk)) ∧
    (f.op = 0x7 → decode w = .ok (.addImm f.x f.kk)) ∧
    (f.op = 0xA → decode w = .ok (.ldI f.nnn)) ∧ (f.op = 0xB → decode w = .ok (.jpV0 f.nnn)) ∧
    (f.op = 0xC → decode w = .ok (.rnd f.x f.kk)) ∧
    (f.op = 0xD → decode w = .ok (.drw f.x f.y f.n))) ∧
  (∀ (x y y' : Reg) (s : State), exec (.shr x y) s = exec (.shr x y') s ∧
    exec (.shl x y) s = exec (.shl x y') s)

/-- Family 0 has exactly the words 0x00E0, 0x00EE and 0x00FD, families 5 and 9 exactly the words with
`n = 0`; the others fault as unknown. The spec's decisions D10 and D11 (log entry 14). -/
def Obligations.StrictFamilyLegality : Prop :=
  (∀ w : Word, (Fields.ofWord w).op = 0 →
    (w ∈ [0x00E0, 0x00EE, 0x00FD] → Legal w) ∧
    (w ∉ [0x00E0, 0x00EE, 0x00FD] → FaultsAsUnknown w)) ∧
  (∀ w : Word, (Fields.ofWord w).op ∈ [5, 9] →
    ((Fields.ofWord w).n = 0 → Legal w) ∧ ((Fields.ofWord w).n ≠ 0 → FaultsAsUnknown w))

/-! ## The step -/

/-- When the bytes at PC and PC + 1, the first one high, decode to an instruction, a STEP of a RUNNING
machine is that instruction's meaning on the state with LAST set to the word (R63, R205; when LAST is
written is D7, log entry 11). -/
def Obligations.StepRunsDecodedInstruction : Prop :=
  ∀ (s : State) (hi lo : Byte) (i : Instr), s.ms = .running →
    s.mem.read s.pc.toNat = some hi → s.mem.read (s.pc.toNat + 1) = some lo →
    decode (BitVec.ofNat 16 (hi.toNat * 256 + lo.toNat)) = .ok i →
    step s = exec i { s with last := BitVec.ofNat 16 (hi.toNat * 256 + lo.toNat) }

/-- A STEP of a RUNNING machine with PC above 0xFFE faults AddressOutOfRange and changes nothing but
MS and CAUSE, LAST included (R68, R205: the spec's decisions D3 and D7, log entries 6 and 11); up to
0xFFE, odd or even, the fetch reads both bytes, high byte first (R63; D4, log entry 8). -/
def Obligations.FetchRangeAndByteOrder : Prop :=
  ∀ s : State, s.ms = .running →
    (0xFFE < s.pc.toNat → step s = .next { s with ms := .faulted, cause := .addressOutOfRange }) ∧
    (s.pc.toNat ≤ 0xFFE → ∃ hi lo, s.mem.read s.pc.toNat = some hi ∧
      s.mem.read (s.pc.toNat + 1) = some lo ∧
      s.fetch = some (BitVec.ofNat 16 (hi.toNat * 256 + lo.toNat)))

/-- A run is over when MS is HALTED or FAULTED: a further STEP changes nothing, and a STEP(r) nothing
but the model's own `entropy`, which ends empty (log entry 2, DESIGN CHOICE); HALTED is reached only
by executing 0x00FD, and FAULTED only with its cause in CAUSE; after the end TICK still takes each
timer down by 1, stopping at 0, and CONSUME_REDRAW still clears REDRAW, and neither changes anything
else (R246; D18, log entry 19). -/
def Obligations.EndOfRun : Prop :=
  (∀ s : State, s.terminal → step s = .next s ∧
    ∀ r : Byte, stepWith r s = .next { s with entropy := none }) ∧
  (∀ s t : State, s.ms = .running → step s = .next t →
    (t.ms = .halted ↔ s.fetch = some 0x00FD) ∧ (t.ms = .faulted → t.cause ≠ .none)) ∧
  (∀ b : Block, b.state.terminal →
    (∃ t, b.handle .tick = .next (⟨b.phase, t⟩, .done) ∧
      t.dt.toNat = b.state.dt.toNat - 1 ∧ t.st.toNat = b.state.st.toNat - 1 ∧
      t = { b.state with dt := t.dt, st := t.st }) ∧
    b.handle .consumeRedraw = .next (⟨b.phase, { b.state with redraw := false }⟩, .done))

/-- Fault entry: when a STEP of a RUNNING machine ends FAULTED, CAUSE names a fault, LAST is the
fetched word if and only if the fetch completed, and nothing else has changed (R202). -/
def Obligations.FaultsArePrecise : Prop :=
  ∀ s t : State, s.ms = .running → step s = .next t → t.ms = .faulted →
    ∃ c, c ≠ Cause.none ∧ t = { s with ms := .faulted, cause := c, last := s.fetch.getD s.last }

/-- When a STEP of a RUNNING machine faults, and with which cause: the fetch above 0xFFE first, then
an illegal word, then the instruction's own check; in every other case it does not fault (R201, R204:
AddressOutOfRange is D3, log entry 6; the order is D23). -/
def Obligations.FaultsExactlyAsListed : Prop :=
  ∀ s t : State, s.ms = .running → step s = .next t →
    (0xFFE < s.pc.toNat → t.ms = .faulted ∧ t.cause = .addressOutOfRange) ∧
    (∀ w e, s.fetch = some w → decode w = .error e →
      t.ms = .faulted ∧ t.cause = .unknownInstruction) ∧
    (∀ w i, s.fetch = some w → decode w = .ok i →
      match i with
      | .call _ => if s.sp.val = 16 then t.ms = .faulted ∧ t.cause = .stackOverflow
          else t.ms = .running
      | .ret => if s.sp.val = 0 then t.ms = .faulted ∧ t.cause = .stackUnderflow
          else t.ms = .running
      | .drw _ _ n => if 1 ≤ n.val ∧ 0xFFF < s.i.toNat + n.val - 1 then
          t.ms = .faulted ∧ t.cause = .addressOutOfRange else t.ms = .running
      | .storeRegs x => if 0xFFF < s.i.toNat + x.val then
          t.ms = .faulted ∧ t.cause = .addressOutOfRange else t.ms = .running
      | .loadRegs x => if 0xFFF < s.i.toNat + x.val then
          t.ms = .faulted ∧ t.cause = .addressOutOfRange else t.ms = .running
      | .exit => t.ms = .halted
      | _ => t.ms = .running)

/-- The default advance: an instruction that is no control transfer and no EXIT, and does not fault,
ends with `PC <- (PC + 2) mod 65536`; a skip ends with PC + 4 or PC + 2; the control-flow
instructions that set PC explicitly do not advance it beyond what they set (R13). What JP V0, nnn sets
above bit 11 is a decision of the spec, which JumpPlusV0KeepsFullSum states. -/
def Obligations.DefaultPcAdvance : Prop :=
  ∀ (i : Instr) (s t : State), s.ms = .running → exec i s = .next t → t.ms = .running →
    match i with
    | .jp nnn => t.pc.toNat = nnn.toNat
    | .call nnn => t.pc.toNat = nnn.toNat
    | .jpV0 nnn => t.pc.toNat % 4096 = (nnn.toNat + (s.reg 0).toNat) % 4096
    | .ret => ∃ h : t.sp.val < 16, t.pc.toNat = ((s.stk[t.sp.val]).toNat + 2) % 65536
    | .seImm _ _ => t.pc.toNat = (s.pc.toNat + 4) % 65536 ∨ t.pc.toNat = (s.pc.toNat + 2) % 65536
    | .sneImm _ _ => t.pc.toNat = (s.pc.toNat + 4) % 65536 ∨ t.pc.toNat = (s.pc.toNat + 2) % 65536
    | .seReg _ _ => t.pc.toNat = (s.pc.toNat + 4) % 65536 ∨ t.pc.toNat = (s.pc.toNat + 2) % 65536
    | .sneReg _ _ => t.pc.toNat = (s.pc.toNat + 4) % 65536 ∨ t.pc.toNat = (s.pc.toNat + 2) % 65536
    | _ => t.pc.toNat = (s.pc.toNat + 2) % 65536

/-- The frame rule over all instructions: MEM changes only in LD [I], Vx; I only in LD I, nnn and ADD
I, Vx; D and REDRAW only in CLS and DRW; SP and STK only in CALL and RET; DT and ST in none; VF only
in the flag-writing instructions, DRW, or where register 15 is the destination (R12: the spec's
decision D8, log entry 12). -/
def Obligations.OnlyListedInstructionsChange : Prop :=
  ∀ (i : Instr) (s t : State), exec i s = .next t →
    ((∃ a, t.mem.read a ≠ s.mem.read a) → ∃ x, i = .storeRegs x) ∧
    (t.i ≠ s.i → (∃ nnn, i = .ldI nnn) ∨ ∃ x, i = .addI x) ∧
    (((∃ cx cy, t.display.pixel cx cy ≠ s.display.pixel cx cy) ∨ t.redraw ≠ s.redraw) →
      i = .cls ∨ ∃ x y n, i = .drw x y n) ∧
    ((t.sp ≠ s.sp ∨ t.stk ≠ s.stk) → (∃ nnn, i = .call nnn) ∨ i = .ret) ∧
    s.SameTimers t ∧
    (t.vf ≠ s.vf →
      (∃ x y, i = .addReg x y ∨ i = .subReg x y ∨ i = .shr x y ∨ i = .subnReg x y ∨ i = .shl x y) ∨
      (∃ x y n, i = .drw x y n) ∨
      (∃ kk, i = .ldImm 15 kk ∨ i = .addImm 15 kk ∨ i = .rnd 15 kk) ∨
      (∃ y, i = .ldReg 15 y ∨ i = .orReg 15 y ∨ i = .andReg 15 y ∨ i = .xorReg 15 y) ∨
      i = .loadRegs 15)

/-! ## Family 0 and control transfer -/

/-- CLS: every pixel 0, REDRAW 1, PC + 2; nothing else changes (R121). -/
def Obligations.ClearDisplay : Prop :=
  ∀ s : State, ∃ t, exec .cls s = .next t ∧ (∀ cx cy, t.display.pixel cx cy = false) ∧
    t.redraw = true ∧ t.pc.toNat = (s.pc.toNat + 2) % 65536 ∧ t.i = s.i ∧ s.SameRegsBut [] t ∧
    s.SameStack t ∧ s.SameTimers t ∧ s.SameControl t ∧ s.SameMem t ∧ s.SameDraws t

/-- RET: with SP above 0, SP goes down by 1 and PC is `STK[SP] + 2`, read with the new SP, the cell
keeping its contents; with SP = 0 it faults StackUnderflow and nothing but MS and CAUSE changes
(R122). -/
def Obligations.ReturnPopsAndAddsTwo : Prop :=
  ∀ s : State,
    (s.sp.val = 0 → exec .ret s = .next { s with ms := .faulted, cause := .stackUnderflow }) ∧
    (s.sp.val ≠ 0 → ∃ (t : State) (h : t.sp.val < 16), exec .ret s = .next t ∧
      t.sp.val + 1 = s.sp.val ∧ t.pc.toNat = ((s.stk[t.sp.val]).toNat + 2) % 65536 ∧
      t.stk = s.stk ∧ t.i = s.i ∧ s.SameRegsBut [] t ∧ s.SameDisplay t ∧ s.SameTimers t ∧
      s.SameControl t ∧ s.SameMem t ∧ s.SameDraws t)

/-- EXIT: MS is HALTED and nothing else changes. That PC keeps the instruction's own address is the
spec's decision D12 (R123, log entry 15). -/
def Obligations.ExitHalts : Prop :=
  ∀ s : State, ∃ t, exec .exit s = .next t ∧ t.ms = .halted ∧ t.pc = s.pc ∧ t.cause = s.cause ∧
    t.last = s.last ∧ t.i = s.i ∧ s.SameRegsBut [] t ∧ s.SameStack t ∧ s.SameDisplay t ∧
    s.SameTimers t ∧ s.SameMem t ∧ s.SameDraws t

/-- JP nnn: PC is `nnn`, for every `nnn`, and nothing else changes (R131). -/
def Obligations.JumpSetsPc : Prop :=
  ∀ (nnn : Addr) (s : State), ∃ t, exec (.jp nnn) s = .next t ∧ t.pc.toNat = nnn.toNat ∧
    t.i = s.i ∧ s.OnlyRegs [] t

/-- JP V0, nnn: PC is `nnn + V0` in full, not reduced modulo 4096: the spec's decision D2 (R137, log
entry 7). -/
def Obligations.JumpPlusV0KeepsFullSum : Prop :=
  ∀ (nnn : Addr) (s : State), ∃ t, exec (.jpV0 nnn) s = .next t ∧
    t.pc.toNat = nnn.toNat + (s.reg 0).toNat ∧ t.i = s.i ∧ s.OnlyRegs [] t

/-- CALL nnn: with SP below 16, the call's own address goes to `STK[SP]`, SP goes up by 1, the other
cells stay, and PC is `nnn`; with SP = 16 it faults StackOverflow and nothing but MS and CAUSE changes
(R132). -/
def Obligations.CallPushesOwnAddress : Prop :=
  ∀ (nnn : Addr) (s : State),
    (s.sp.val = 16 →
      exec (.call nnn) s = .next { s with ms := .faulted, cause := .stackOverflow }) ∧
    (s.sp.val < 16 → ∃ t, exec (.call nnn) s = .next t ∧ t.sp.val = s.sp.val + 1 ∧
      t.pc.toNat = nnn.toNat ∧
      (∀ (k : Nat) (hk : k < 16), t.stk[k] = if k = s.sp.val then s.pc else s.stk[k]) ∧
      t.i = s.i ∧ s.SameRegsBut [] t ∧ s.SameDisplay t ∧ s.SameTimers t ∧ s.SameControl t ∧
      s.SameMem t ∧ s.SameDraws t)

/-- A call and the matching return land on the word after the call, with SP as before and every valid
stack entry untouched (R122, R130, R132). -/
def Obligations.CallThenReturnResumes : Prop :=
  ∀ (nnn : Addr) (s : State), s.sp.val < 16 → ∃ t u, exec (.call nnn) s = .next t ∧
    exec .ret t = .next u ∧ u.pc.toNat = (s.pc.toNat + 2) % 65536 ∧ u.sp = s.sp ∧
    (∀ (k : Nat) (hk : k < 16), k ≠ s.sp.val → u.stk[k] = s.stk[k]) ∧ u.i = s.i ∧
    s.SameRegsBut [] u ∧ s.SameDisplay u ∧ s.SameTimers u ∧ s.SameControl u ∧ s.SameMem u

/-- The four conditional skips: PC + 4 if the registers or the immediate compare as the instruction
asks, else PC + 2; nothing else changes (R133 to R136). -/
def Obligations.SkipsCompareAndAdvance : Prop :=
  ∀ (x y : Reg) (kk : Byte) (s : State),
    (∃ t, exec (.seImm x kk) s = .next t ∧ t.i = s.i ∧ s.OnlyRegs [] t ∧
      t.pc.toNat = (s.pc.toNat + if (s.reg x).toNat = kk.toNat then 4 else 2) % 65536) ∧
    (∃ t, exec (.sneImm x kk) s = .next t ∧ t.i = s.i ∧ s.OnlyRegs [] t ∧
      t.pc.toNat = (s.pc.toNat + if (s.reg x).toNat = kk.toNat then 2 else 4) % 65536) ∧
    (∃ t, exec (.seReg x y) s = .next t ∧ t.i = s.i ∧ s.OnlyRegs [] t ∧
      t.pc.toNat = (s.pc.toNat + if (s.reg x).toNat = (s.reg y).toNat then 4 else 2) % 65536) ∧
    (∃ t, exec (.sneReg x y) s = .next t ∧ t.i = s.i ∧ s.OnlyRegs [] t ∧
      t.pc.toNat = (s.pc.toNat + if (s.reg x).toNat = (s.reg y).toNat then 2 else 4) % 65536)

/-! ## Immediates and random -/

/-- LD Vx, kk and ADD Vx, kk write `V[x]` alone (the sum modulo 256, no flag), LD I, nnn writes I
alone, bits 15 to 12 becoming 0; PC + 2 (R151 to R153). -/
def Obligations.ImmediatesLoadAndAdd : Prop :=
  ∀ (x : Reg) (kk : Byte) (nnn : Addr) (s : State),
    (∃ t, exec (.ldImm x kk) s = .next t ∧ t.reg x = kk ∧
      t.pc.toNat = (s.pc.toNat + 2) % 65536 ∧ t.i = s.i ∧ s.OnlyRegs [x] t) ∧
    (∃ t, exec (.addImm x kk) s = .next t ∧
      (t.reg x).toNat = ((s.reg x).toNat + kk.toNat) % 256 ∧
      t.pc.toNat = (s.pc.toNat + 2) % 65536 ∧ t.i = s.i ∧ s.OnlyRegs [x] t) ∧
    (∃ t, exec (.ldI nnn) s = .next t ∧ t.i.toNat = nnn.toNat ∧
      t.pc.toNat = (s.pc.toNat + 2) % 65536 ∧ s.OnlyRegs [] t)

/-- RND Vx, kk: `V[x]` is `r & kk` bit by bit for whatever byte `r` the STEP event brings, and PC + 2;
nothing else of the machine changes. The same holds of the model's free value where the host supplies
no byte (R154; log entries 1 and 2 on the last two equations). -/
def Obligations.RandomByteIsMasked : Prop :=
  ∀ (x : Reg) (kk r : Byte) (s : State), (s.entropy = some r ∨
      (s.entropy = none ∧ r = Config.randomByte s.draws)) →
    ∃ t, exec (.rnd x kk) s = .next t ∧
      (∀ k < 8, (t.reg x).getLsbD k = (r.getLsbD k && kk.getLsbD k)) ∧
      t.pc.toNat = (s.pc.toNat + 2) % 65536 ∧ t.i = s.i ∧ s.SameRegsBut [x] t ∧ s.SameStack t ∧
      s.SameDisplay t ∧ s.SameTimers t ∧ s.SameControl t ∧ s.SameMem t ∧
      t.entropy = none ∧ t.draws = s.draws + 1

/-- STEP(r) uses `r` only where the instruction executed is `0xCxkk`: in every other STEP the byte
makes no difference, and in a RND the whole difference is the value of `V[x]` (R43, R154). -/
def Obligations.RandomInputOnlyForRnd : Prop :=
  (∀ (s : State) (r r' : Byte),
    (∀ w x kk, s.fetch = some w → decode w ≠ .ok (.rnd x kk)) → stepWith r s = stepWith r' s) ∧
  (∀ (s : State) (w : Word) (x : Reg) (kk r : Byte), s.ms = .running → s.fetch = some w →
    decode w = .ok (.rnd x kk) → ∃ t, stepWith r s = .next t ∧ t.reg x = r &&& kk ∧
      t.last = w ∧ t.pc.toNat = (s.pc.toNat + 2) % 65536 ∧ t.i = s.i ∧ s.SameRegsBut [x] t ∧
      s.SameStack t ∧ s.SameDisplay t ∧ s.SameTimers t ∧ t.ms = s.ms ∧ t.cause = s.cause ∧
      s.SameMem t)

/-! ## ALU -/

/-- LD, OR, AND, XOR Vx, Vy: bit by bit, `V[x]` alone, VF only as the destination, PC + 2 (R161 to
R164). -/
def Obligations.CopyAndLogic : Prop :=
  ∀ (x y : Reg) (s : State),
    (∃ t, exec (.ldReg x y) s = .next t ∧ t.reg x = s.reg y ∧
      t.pc.toNat = (s.pc.toNat + 2) % 65536 ∧ t.i = s.i ∧ s.OnlyRegs [x] t) ∧
    (∃ t, exec (.orReg x y) s = .next t ∧
      (∀ k < 8, (t.reg x).getLsbD k = ((s.reg x).getLsbD k || (s.reg y).getLsbD k)) ∧
      t.pc.toNat = (s.pc.toNat + 2) % 65536 ∧ t.i = s.i ∧ s.OnlyRegs [x] t) ∧
    (∃ t, exec (.andReg x y) s = .next t ∧
      (∀ k < 8, (t.reg x).getLsbD k = ((s.reg x).getLsbD k && (s.reg y).getLsbD k)) ∧
      t.pc.toNat = (s.pc.toNat + 2) % 65536 ∧ t.i = s.i ∧ s.OnlyRegs [x] t) ∧
    (∃ t, exec (.xorReg x y) s = .next t ∧
      (∀ k < 8, (t.reg x).getLsbD k = ((s.reg x).getLsbD k ^^ (s.reg y).getLsbD k)) ∧
      t.pc.toNat = (s.pc.toNat + 2) % 65536 ∧ t.i = s.i ∧ s.OnlyRegs [x] t)

/-- The arithmetic laws of the flag-writing instructions, for a destination other than VF and every
source: results modulo 256; VF is 1 on carry out for ADD, on no borrow for SUB and SUBN, the bit
shifted out for SHR and SHL; equal operands of a subtraction give result 0 and VF 1; no overflow
faults (R160, R165 to R169). With VF as the source (`y = 15`) the operand is the old VF and VF ends as
the flag: R171, the spec's decision D9 (log entry 13). FlagArithmeticIntoVF has VF as the
destination. -/
def Obligations.FlagArithmeticConventions : Prop :=
  ∀ (x y : Reg) (s : State), x ≠ 15 →
    (∃ t, exec (.addReg x y) s = .next t ∧
      (t.reg x).toNat = ((s.reg x).toNat + (s.reg y).toNat) % 256 ∧
      t.vf.toNat = (if (s.reg x).toNat + (s.reg y).toNat > 255 then 1 else 0) ∧
      t.pc.toNat = (s.pc.toNat + 2) % 65536 ∧ t.i = s.i ∧ s.OnlyRegs [x, 15] t) ∧
    (∃ t, exec (.subReg x y) s = .next t ∧
      (t.reg x).toNat = ((s.reg x).toNat + 256 - (s.reg y).toNat) % 256 ∧
      t.vf.toNat = (if (s.reg x).toNat ≥ (s.reg y).toNat then 1 else 0) ∧
      ((s.reg x).toNat = (s.reg y).toNat → (t.reg x).toNat = 0 ∧ t.vf.toNat = 1) ∧
      t.pc.toNat = (s.pc.toNat + 2) % 65536 ∧ t.i = s.i ∧ s.OnlyRegs [x, 15] t) ∧
    (∃ t, exec (.shr x y) s = .next t ∧
      (t.reg x).toNat = (s.reg x).toNat / 2 ∧ t.vf.toNat = (s.reg x).toNat % 2 ∧
      t.pc.toNat = (s.pc.toNat + 2) % 65536 ∧ t.i = s.i ∧ s.OnlyRegs [x, 15] t) ∧
    (∃ t, exec (.subnReg x y) s = .next t ∧
      (t.reg x).toNat = ((s.reg y).toNat + 256 - (s.reg x).toNat) % 256 ∧
      t.vf.toNat = (if (s.reg y).toNat ≥ (s.reg x).toNat then 1 else 0) ∧
      ((s.reg x).toNat = (s.reg y).toNat → (t.reg x).toNat = 0 ∧ t.vf.toNat = 1) ∧
      t.pc.toNat = (s.pc.toNat + 2) % 65536 ∧ t.i = s.i ∧ s.OnlyRegs [x, 15] t) ∧
    (∃ t, exec (.shl x y) s = .next t ∧
      (t.reg x).toNat = (s.reg x).toNat * 2 % 256 ∧ t.vf.toNat = (s.reg x).toNat / 128 ∧
      t.pc.toNat = (s.pc.toNat + 2) % 65536 ∧ t.i = s.i ∧ s.OnlyRegs [x, 15] t)

/-- With VF as the destination of a flag-writing instruction, VF ends as the result of the old
operands and the flag is lost: the spec's decision D9 (R11, R171; log entry 13). -/
def Obligations.FlagArithmeticIntoVF : Prop :=
  ∀ (y : Reg) (s : State),
    (∃ t, exec (.addReg 15 y) s = .next t ∧ t.vf.toNat = (s.vf.toNat + (s.reg y).toNat) % 256 ∧
      t.pc.toNat = (s.pc.toNat + 2) % 65536 ∧ t.i = s.i ∧ s.OnlyRegs [15] t) ∧
    (∃ t, exec (.subReg 15 y) s = .next t ∧
      t.vf.toNat = (s.vf.toNat + 256 - (s.reg y).toNat) % 256 ∧
      t.pc.toNat = (s.pc.toNat + 2) % 65536 ∧ t.i = s.i ∧ s.OnlyRegs [15] t) ∧
    (∃ t, exec (.shr 15 y) s = .next t ∧ t.vf.toNat = s.vf.toNat / 2 ∧
      t.pc.toNat = (s.pc.toNat + 2) % 65536 ∧ t.i = s.i ∧ s.OnlyRegs [15] t) ∧
    (∃ t, exec (.subnReg 15 y) s = .next t ∧
      t.vf.toNat = ((s.reg y).toNat + 256 - s.vf.toNat) % 256 ∧
      t.pc.toNat = (s.pc.toNat + 2) % 65536 ∧ t.i = s.i ∧ s.OnlyRegs [15] t) ∧
    (∃ t, exec (.shl 15 y) s = .next t ∧ t.vf.toNat = s.vf.toNat * 2 % 256 ∧
      t.pc.toNat = (s.pc.toNat + 2) % 65536 ∧ t.i = s.i ∧ s.OnlyRegs [15] t)

/-! ## Draw -/

/-- DRW Vx, Vy, n with its bytes inside memory: exactly the pixels its set bits reach, wrapped in both
directions, are toggled; VF is 1 if one of them was lit, else 0; REDRAW is 1; PC + 2; every other
register, I and all of memory stay. With `n = 0` no byte is read, so any I will do. The coordinates
are the old `V[x]` and `V[y]` also where one of them is VF: D9, log entry 13; wrapping: D14, log entry
17; the range: D3, log entry 6 (R181 to R185). -/
def Obligations.DrawTogglesSpritePixels : Prop :=
  ∀ (x y : Reg) (n : Count) (s : State), n.val = 0 ∨ s.i.toNat + n.val - 1 ≤ 0xFFF →
    ∃ t, exec (.drw x y n) s = .next t ∧
      (∀ cx cy, s.DrawHits x y n cx cy → t.display.pixel cx cy = !s.display.pixel cx cy) ∧
      (∀ cx cy, ¬ s.DrawHits x y n cx cy → t.display.pixel cx cy = s.display.pixel cx cy) ∧
      ((∃ cx cy, s.DrawHits x y n cx cy ∧ s.display.pixel cx cy = true) → t.vf.toNat = 1) ∧
      ((¬ ∃ cx cy, s.DrawHits x y n cx cy ∧ s.display.pixel cx cy = true) → t.vf.toNat = 0) ∧
      t.redraw = true ∧ t.pc.toNat = (s.pc.toNat + 2) % 65536 ∧ t.i = s.i ∧
      s.SameRegsBut [15] t ∧ s.SameStack t ∧ s.SameTimers t ∧ s.SameControl t ∧ s.SameMem t ∧
      s.SameDraws t

/-- Drawing the same sprite at the same coordinates twice restores the display exactly, and VF is 1
after the second draw if the first turned a pixel from 0 to 1; the coordinates are the same on both
draws unless the first draw changed VF and `x` or `y` is VF (R186). -/
def Obligations.DrawTwiceRestoresDisplay : Prop :=
  ∀ (x y : Reg) (n : Count) (s : State), n.val = 0 ∨ s.i.toNat + n.val - 1 ≤ 0xFFF →
    ∃ t, exec (.drw x y n) s = .next t ∧
      (x ≠ 15 ∧ y ≠ 15 → t.reg x = s.reg x ∧ t.reg y = s.reg y) ∧
      (t.reg x = s.reg x → t.reg y = s.reg y → ∃ u, exec (.drw x y n) t = .next u ∧
        (∀ cx cy, u.display.pixel cx cy = s.display.pixel cx cy) ∧
        ((∃ cx cy, s.display.pixel cx cy = false ∧ t.display.pixel cx cy = true) →
          u.vf.toNat = 1))

/-! ## Address register, store and load -/

/-- ADD I, Vx: the sum modulo 65536, VF and every register unchanged: the spec's decisions D13 and D8
(R191; log entries 12 and 16). -/
def Obligations.AddressRegisterAdd : Prop :=
  ∀ (x : Reg) (s : State), ∃ t, exec (.addI x) s = .next t ∧
    t.i.toNat = (s.i.toNat + (s.reg x).toNat) % 65536 ∧
    t.pc.toNat = (s.pc.toNat + 2) % 65536 ∧ s.OnlyRegs [] t

/-- LD [I], Vx inside memory: `V[k]` is the byte at `I + k` for every `k` up to `x`, every byte
outside those reads as before, no register and not I changes, PC + 2 (R192; I unchanged: D8, log entry
12; the address `I + k` is the one the meaning uses, `dataAddr`). -/
def Obligations.StoreWritesRegisterRange : Prop :=
  ∀ (x : Reg) (s : State), s.i.toNat + x.val ≤ 0xFFF →
    ∃ t, exec (.storeRegs x) s = .next t ∧
      (∀ k : Reg, k ≤ x → t.mem.read (s.dataAddr k.val) = some (s.reg k)) ∧
      (∀ a, (∀ k : Reg, k ≤ x → a ≠ s.dataAddr k.val) → t.mem.read a = s.mem.read a) ∧
      t.pc.toNat = (s.pc.toNat + 2) % 65536 ∧ t.i = s.i ∧ s.SameRegsBut [] t ∧ s.SameStack t ∧
      s.SameDisplay t ∧ s.SameTimers t ∧ s.SameControl t ∧ s.SameDraws t ∧
      t.mem.font = s.mem.font

/-- LD Vx, [I] inside memory: `V[k]` takes the byte at `I + k` for every `k` up to `x`, the registers
above `x`, I and memory stay, PC + 2 (R193; I unchanged: D8, log entry 12). -/
def Obligations.LoadReadsRegisterRange : Prop :=
  ∀ (x : Reg) (s : State), s.i.toNat + x.val ≤ 0xFFF →
    ∃ t, exec (.loadRegs x) s = .next t ∧
      (∀ k : Reg, k ≤ x → s.mem.read (s.dataAddr k.val) = some (t.reg k)) ∧
      (∀ k : Reg, x < k → t.reg k = s.reg k) ∧
      t.pc.toNat = (s.pc.toNat + 2) % 65536 ∧ t.i = s.i ∧ s.SameStack t ∧ s.SameDisplay t ∧
      s.SameTimers t ∧ s.SameControl t ∧ s.SameMem t ∧ s.SameDraws t

/-- A sprite, store or load with a byte above 0xFFF faults AddressOutOfRange and changes nothing but
MS and CAUSE; no byte of the range lands: the spec's decision D3 (R68, R181, R192, R193; log entry
6). -/
def Obligations.TransfersOutOfRangeFault : Prop :=
  ∀ (x y : Reg) (n : Count) (s : State),
    (1 ≤ n.val → 0xFFF < s.i.toNat + n.val - 1 →
      exec (.drw x y n) s = .next { s with ms := .faulted, cause := .addressOutOfRange }) ∧
    (0xFFF < s.i.toNat + x.val →
      exec (.storeRegs x) s = .next { s with ms := .faulted, cause := .addressOutOfRange } ∧
      exec (.loadRegs x) s = .next { s with ms := .faulted, cause := .addressOutOfRange })

/-- A store followed by a load leaves `V[0..x]` as they were, and a load followed by a store leaves
every byte of memory as it was (R194). -/
def Obligations.StoreLoadRoundTrip : Prop :=
  ∀ (x : Reg) (s : State), s.i.toNat + x.val ≤ 0xFFF →
    (∃ t u, exec (.storeRegs x) s = .next t ∧ exec (.loadRegs x) t = .next u ∧
      s.SameRegsBut [] u) ∧
    (∃ t u, exec (.loadRegs x) s = .next t ∧ exec (.storeRegs x) t = .next u ∧ s.SameMem u)

/-- A store is seen by the very next fetch: where LD [I], Vx writes two registers or more over the
word after itself, that fetch reads `V[0]` as the high byte and `V[1]` as the low byte (R63, R71). -/
def Obligations.StoredCodeIsFetched : Prop :=
  ∀ (x : Reg) (s : State), 1 ≤ x.val → s.i.toNat + x.val ≤ 0xFFF → s.i.toNat = s.pc.toNat + 2 →
    ∃ t, exec (.storeRegs x) s = .next t ∧
      t.fetch = some (BitVec.ofNat 16 ((s.reg 0).toNat * 256 + (s.reg 1).toNat))

/-! ## Invariants -/

/-- The reset state meets the state invariant, with the default font and with every other (R35, R40). -/
def Obligations.ResetMeetsInvariant : Prop :=
  State.reset.Inv ∧ ∀ font : Config.FontParams, (State.resetWith font).Inv

/-- Every STEP keeps the state invariant: memory stays in canonical form, and MS is FAULTED exactly
when CAUSE names a fault (R31, R35; log entry 4 on the canonical form). -/
def Obligations.StepKeepsInvariant : Prop :=
  ∀ s t : State, s.Inv → step s = .next t → t.Inv

/-- In every state that events reach from reset, for every font: the state invariant holds (that memory
is in canonical form is the model's choice, log entry 4), DT and ST are 0 and `sound_active` is 0
(nothing loads a timer: D24, log entry 22), no font byte parameter has changed, and a FAULTED or
HALTED machine is not changed by STEP (R35, R211). EventsKeepInvariant is the step it rests on. -/
def Obligations.ReachableStatesMeetInvariant : Prop :=
  ∀ (font : Config.FontParams) (b : Block), b.Reachable font →
    b.state.Inv ∧ b.state.dt = 0 ∧ b.state.st = 0 ∧ b.state.outSoundActive = 0 ∧
    b.state.mem.font = font ∧ (b.state.terminal → step b.state = .next b.state)

/-! ## Reset, load, timers, redraw, outputs -/

/-- Every item of state right after RESET, for every font: registers, I, SP, the stack, the timers,
the display, REDRAW and LAST zero, PC 0x200, RUNNING, no cause, the font at FONT_BASE and zero in
every other byte of memory (R40; D16 for the items the source does not name, log entry 18). -/
def Obligations.ResetValues : Prop :=
  ∀ font : Config.FontParams,
    (∀ r, (State.resetWith font).reg r = 0) ∧ (State.resetWith font).i = 0 ∧
    (State.resetWith font).pc = 0x200 ∧ (State.resetWith font).sp = 0 ∧
    (∀ (k : Nat) (hk : k < 16), (State.resetWith font).stk[k] = 0) ∧
    (State.resetWith font).dt = 0 ∧ (State.resetWith font).st = 0 ∧
    (∀ cx cy, (State.resetWith font).display.pixel cx cy = false) ∧
    (State.resetWith font).redraw = false ∧ (State.resetWith font).ms = .running ∧
    (State.resetWith font).cause = .none ∧ (State.resetWith font).last = 0 ∧
    (∀ (k : Nat) (hk : k < 80),
      (State.resetWith font).mem.read (font.base.val + k) = some font.bytes[k]) ∧
    (∀ a, a ≤ 0xFFF → (∀ k < 80, a ≠ font.base.val + k) →
      (State.resetWith font).mem.read a = some 0) ∧
    (∀ a, 0xFFF < a → (State.resetWith font).mem.read a = none)

/-- RESET, in every state, gives the reset state of the machine's own font, and the boot order starts
anew; it is the only event after which a terminal machine runs (R42: the spec's decision D25). That
the random draws go on is the model's own choice (log entry 25). -/
def Obligations.ResetIsTheOnlyRecovery : Prop :=
  (∀ b : Block, b.handle .reset = .next (⟨.fresh,
    { State.resetWith b.state.mem.font with draws := b.state.draws }⟩, .done)) ∧
  (∀ (b b' : Block) (e : Event) (r : Reply), b.state.terminal → b.handle e = .next (b', r) →
    e ≠ .reset → b'.state.ms = b.state.ms ∧ b'.state.cause = b.state.cause)

/-- LOAD before the first STEP and the first success: an image of 3584 bytes or more is refused with
ProgramTooLarge and nothing changes; a shorter one is copied to 0x200 and up, every other byte of
memory and all other state staying as it was (R243). -/
def Obligations.LoadCopiesImage : Prop :=
  ∀ (b : Block) (bytes : List Byte), b.phase = .fresh →
    (3584 ≤ bytes.length → b.handle (.load bytes) = .next (b, .programTooLarge)) ∧
    (bytes.length < 3584 → ∃ m, b.handle (.load bytes) =
        .next (⟨.loaded, { b.state with mem := m }⟩, .loadOk) ∧
      (∀ (k : Nat) (hk : k < bytes.length), m.read (0x200 + k) = some bytes[k]) ∧
      (∀ a, a < 0x200 ∨ 0x200 + bytes.length ≤ a → m.read a = b.state.mem.read a))

/-- LOAD after a successful LOAD or after a STEP is refused by name, and a STEP ends the time in which
LOAD is legal: the spec's decision D19 (R44, R244; log entry 20). That an image of 3584 bytes or more
is refused too after a successful LOAD is the model's own choice (log entry 28). -/
def Obligations.LoadOutOfOrderIsRefused : Prop :=
  (∀ (b : Block) (bytes : List Byte), b.phase ≠ .fresh →
    b.handle (.load bytes) = .refused .loadOutOfOrder) ∧
  (∀ (b : Block) (r : Byte), ∃ s, b.handle (.step r) = .next (⟨.started, s⟩, .status s.ms))

/-- TICK: each timer on its own goes down by 1 and stays at 0, whatever MS is, and nothing else
changes (R208; that it acts in terminal states is D18, log entry 19). -/
def Obligations.TickCountsDown : Prop :=
  ∀ b : Block, ∃ t, b.handle .tick = .next (⟨b.phase, t⟩, .done) ∧
    t.dt.toNat = b.state.dt.toNat - 1 ∧ t.st.toNat = b.state.st.toNat - 1 ∧
    t = { b.state with dt := t.dt, st := t.st }

/-- CONSUME_REDRAW: `REDRAW <- 0`, in every state, and nothing else changes (R46). -/
def Obligations.ConsumeRedrawClearsFlag : Prop :=
  ∀ b : Block, ∃ t, b.handle .consumeRedraw = .next (⟨b.phase, t⟩, .done) ∧ t.redraw = false ∧
    t = { b.state with redraw := t.redraw }

/-- TICK and STEP(r) commute: a tick before a step gives the state that the tick after it gives
(R210). -/
def Obligations.TickCommutesWithStep : Prop :=
  ∀ (r : Byte) (s t : State), stepWith r s = .next t → stepWith r s.tick = .next t.tick

/-- The outputs: the codes of MS and CAUSE, LAST, REDRAW, bit `cy * 64 + cx` of the snapshot is
`D[cx][cy]`, and `sound_active` is 1 exactly when ST is above 0 (R47, R201, R209; the codes are D6 and
the bit order D15, log entries 10 and 17). -/
def Obligations.OutputsReadState : Prop :=
  ∀ s : State,
    s.outState.toNat = (match s.ms with | .running => 0 | .faulted => 1 | .halted => 2) ∧
    s.outFaultCause.toNat = (match s.cause with
      | .none => 0 | .unknownInstruction => 1 | .stackOverflow => 2 | .stackUnderflow => 3
      | .addressOutOfRange => 4) ∧
    s.outLastInstr = s.last ∧ s.outRedrawPending.toNat = (if s.redraw then 1 else 0) ∧
    (∀ (cx : Fin 64) (cy : Fin 32),
      s.outDisplaySnapshot.getLsbD (cy.val * 64 + cx.val) = s.display.pixel cx cy) ∧
    s.outSoundActive.toNat = (if s.st.toNat > 0 then 1 else 0)

/-! ## The invariant over events -/

/-- Every event that the block answers keeps, for every font, the state invariant (canonical memory is
the model's choice, log entry 4), DT and ST at 0 (D24, log entry 22) and the font parameters; and the
block right after its first RESET meets them (R35, R40, R211). Every block is meant, reached or not. -/
def Obligations.EventsKeepInvariant : Prop :=
  ∀ font : Config.FontParams,
    Block.RestInv font (Block.afterReset font) ∧
    ∀ (b b' : Block) (e : Event) (r : Reply), Block.RestInv font b → b.handle e = .next (b', r) →
      Block.RestInv font b'
end

