-- ==== Sys2Proof/Laws/Decode.lean ====
section
/-! SUPPORT. The fields of a packed word, and words as two bytes. -/

namespace Sys2Proof

theorem Fields.ofWord_op (w : Word) : (Fields.ofWord w).op.val = w.toNat / 4096 := by
  have := w.isLt
  simp only [Fields.ofWord, BitVec.val_toFin, BitVec.extractLsb'_toNat, Nat.shiftRight_eq_div_pow]
  omega

theorem Fields.ofWord_x (w : Word) : (Fields.ofWord w).x.val = w.toNat / 256 % 16 := by
  simp only [Fields.ofWord, BitVec.val_toFin, BitVec.extractLsb'_toNat, Nat.shiftRight_eq_div_pow]

theorem Fields.ofWord_y (w : Word) : (Fields.ofWord w).y.val = w.toNat / 16 % 16 := by
  simp only [Fields.ofWord, BitVec.val_toFin, BitVec.extractLsb'_toNat, Nat.shiftRight_eq_div_pow]

theorem Fields.ofWord_n (w : Word) : (Fields.ofWord w).n.val = w.toNat % 16 := by
  simp only [Fields.ofWord, BitVec.val_toFin, BitVec.extractLsb'_toNat, Nat.shiftRight_eq_div_pow]
  norm_num

theorem Fields.ofWord_kk (w : Word) : (Fields.ofWord w).kk.toNat = w.toNat % 256 := by
  simp only [Fields.ofWord, BitVec.extractLsb'_toNat, Nat.shiftRight_eq_div_pow]
  norm_num

theorem Fields.ofWord_nnn (w : Word) : (Fields.ofWord w).nnn.toNat = w.toNat % 4096 := by
  simp only [Fields.ofWord, BitVec.extractLsb'_toNat, Nat.shiftRight_eq_div_pow]
  norm_num

theorem packNNN_toNat (op : Fin 16) (nnn : Addr) :
    (packNNN op nnn).toNat = op.val * 4096 + nnn.toNat := by
  have := nnn.isLt
  have := op.isLt
  simp only [packNNN, BitVec.toNat_ofNat]
  omega

theorem packXKK_toNat (op : Fin 16) (x : Reg) (kk : Byte) :
    (packXKK op x kk).toNat = op.val * 4096 + x.val * 256 + kk.toNat := by
  have := kk.isLt
  simp only [packXKK, BitVec.toNat_ofNat]
  omega

theorem packXYN_toNat (op : Fin 16) (x y : Reg) (n : Count) :
    (packXYN op x y n).toNat = op.val * 4096 + x.val * 256 + y.val * 16 + n.val := by
  simp only [packXYN, BitVec.toNat_ofNat]
  omega

/-- The fields a NNN word yields (R92). -/
theorem Fields.ofWord_packNNN (op : Fin 16) (nnn : Addr) :
    (Fields.ofWord (packNNN op nnn)).op = op ∧ (Fields.ofWord (packNNN op nnn)).nnn = nnn := by
  have := nnn.isLt
  refine ⟨Fin.ext ?_, BitVec.eq_of_toNat_eq ?_⟩
  · rw [Fields.ofWord_op, packNNN_toNat]; omega
  · rw [Fields.ofWord_nnn, packNNN_toNat]; omega

/-- The fields a XKK word yields (R92). -/
theorem Fields.ofWord_packXKK (op : Fin 16) (x : Reg) (kk : Byte) :
    (Fields.ofWord (packXKK op x kk)).op = op ∧ (Fields.ofWord (packXKK op x kk)).x = x ∧
    (Fields.ofWord (packXKK op x kk)).kk = kk := by
  have := kk.isLt
  refine ⟨Fin.ext ?_, Fin.ext ?_, BitVec.eq_of_toNat_eq ?_⟩
  · rw [Fields.ofWord_op, packXKK_toNat]; omega
  · rw [Fields.ofWord_x, packXKK_toNat]; omega
  · rw [Fields.ofWord_kk, packXKK_toNat]; omega

/-- The fields a XYN word yields (R92). -/
theorem Fields.ofWord_packXYN (op : Fin 16) (x y : Reg) (n : Count) :
    (Fields.ofWord (packXYN op x y n)).op = op ∧ (Fields.ofWord (packXYN op x y n)).x = x ∧
    (Fields.ofWord (packXYN op x y n)).y = y ∧ (Fields.ofWord (packXYN op x y n)).n = n := by
  refine ⟨Fin.ext ?_, Fin.ext ?_, Fin.ext ?_, Fin.ext ?_⟩
  · rw [Fields.ofWord_op, packXYN_toNat]; omega
  · rw [Fields.ofWord_x, packXYN_toNat]; omega
  · rw [Fields.ofWord_y, packXYN_toNat]; omega
  · rw [Fields.ofWord_n, packXYN_toNat]; omega

/-- The mask 0xF000 keeps the family digit. -/
theorem toNat_and_F000 (w : Word) : (w &&& 0xF000).toNat = 4096 * (w.toNat / 4096) := by
  have hw := w.isLt
  have h : w &&& (0xF000 : Word) = (w >>> 12) <<< 12 := by
    apply BitVec.eq_of_getLsbD_eq
    intro k hk
    simp only [BitVec.getLsbD_and, BitVec.getLsbD_shiftLeft, BitVec.getLsbD_ushiftRight, hk,
      decide_true, Bool.true_and]
    interval_cases k <;> simp [BitVec.getLsbD, Nat.testBit]
  rw [h]
  simp only [BitVec.toNat_shiftLeft, BitVec.toNat_ushiftRight, Nat.shiftRight_eq_div_pow,
    Nat.shiftLeft_eq]
  omega

/-- A mask that keeps the family digit and the low `k` bits. -/
theorem toNat_and_family_low (w low : Word) (k : Nat) (hk : k ≤ 12) (hl : low.toNat = 2 ^ k - 1) :
    (w &&& (0xF000 ||| low)).toNat = 4096 * (w.toNat / 4096) + w.toNat % 2 ^ k := by
  have hp : 2 ^ k ≤ 2 ^ 12 := Nat.pow_le_pow_right (by omega) hk
  have hm : w.toNat % 2 ^ k < 2 ^ 12 := lt_of_lt_of_le (Nat.mod_lt _ (by positivity)) hp
  rw [BitVec.and_or_distrib_left, BitVec.toNat_or, toNat_and_F000, BitVec.toNat_and, hl,
    Nat.and_two_pow_sub_one_eq_mod]
  exact (Nat.two_pow_add_eq_or_of_lt hm _).symm

/-- A row with mask 0xF000 is selected by the family digit (R104). -/
theorem OpcodeRow.selects_F000 (w v : Word) :
    (OpcodeRow.mk v 0xF000).selects w = true ↔ 4096 * (w.toNat / 4096) = v.toNat := by
  simp only [OpcodeRow.selects, beq_iff_eq, ← BitVec.toNat_inj, toNat_and_F000]

/-- A row with mask 0xF00F is selected by the family digit and `n` (R104). -/
theorem OpcodeRow.selects_F00F (w v : Word) :
    (OpcodeRow.mk v 0xF00F).selects w = true ↔
      4096 * (w.toNat / 4096) + w.toNat % 16 = v.toNat := by
  have h := toNat_and_family_low w 0x000F 4 (by omega) (by decide)
  have e : (0xF000 ||| 0x000F : Word) = 0xF00F := by decide
  rw [e] at h
  simp only [OpcodeRow.selects, beq_iff_eq, ← BitVec.toNat_inj, h, Nat.reducePow]

/-- A row with mask 0xF0FF is selected by the family digit and `kk` (R104). -/
theorem OpcodeRow.selects_F0FF (w v : Word) :
    (OpcodeRow.mk v 0xF0FF).selects w = true ↔
      4096 * (w.toNat / 4096) + w.toNat % 256 = v.toNat := by
  have h := toNat_and_family_low w 0x00FF 8 (by omega) (by decide)
  have e : (0xF000 ||| 0x00FF : Word) = 0xF0FF := by decide
  rw [e] at h
  simp only [OpcodeRow.selects, beq_iff_eq, ← BitVec.toNat_inj, h, Nat.reducePow]

/-- A row with mask 0xFFFF is selected by its own word (R104). -/
theorem OpcodeRow.selects_FFFF (w v : Word) :
    (OpcodeRow.mk v 0xFFFF).selects w = true ↔ w = v := by
  have : w &&& 0xFFFF = w := BitVec.and_allOnes (x := w)
  simp only [OpcodeRow.selects, beq_iff_eq, this]

/-- The decoder's fields overlap as rule R91 says. -/
theorem Fields.ofWord_wf (w : Word) : (Fields.ofWord w).wf := by
  constructor
  · rw [Fields.ofWord_kk, Fields.ofWord_y, Fields.ofWord_n]; omega
  · rw [Fields.ofWord_nnn, Fields.ofWord_x, Fields.ofWord_kk]; omega

theorem wordOfBytes_toNat (hi lo : Byte) :
    (wordOfBytes hi lo).toNat = hi.toNat * 256 + lo.toNat := by
  have := hi.isLt
  have := lo.isLt
  simp only [wordOfBytes, BitVec.toNat_ofNat]
  omega

/-- A word laid out as its two bytes and read back is that word (R63, R90). -/
theorem wordOfBytes_bytesOfWord (w : Word) :
    wordOfBytes (w.extractLsb' 8 8) (w.extractLsb' 0 8) = w := by
  have := w.isLt
  apply BitVec.eq_of_toNat_eq
  rw [wordOfBytes_toNat]
  simp only [BitVec.extractLsb'_toNat, Nat.shiftRight_eq_div_pow]
  omega

end Sys2Proof
end

