-- ==== Sys2Proof/Laws/Display.lean ====
section
/-! SUPPORT. What the display operations do: toggling, clearing, the sprite draw in closed form, and
the snapshot's bits. -/

namespace Sys2Proof.Machine

open Sys2Proof

/-- A sprite with its top left corner at column `x0`, row `y0` reaches the pixel with a set bit: bit
`7 - c` of byte `r`, at column `(x0 + c) mod 64`, row `(y0 + r) mod 32` (R181, R182). -/
def SpriteHits (x0 y0 : Byte) (sprite : List Byte) (cx : Fin 64) (cy : Fin 32) : Prop :=
  ∃ (r : Nat) (h : r < sprite.length), ∃ c < 8, (sprite[r]).getLsbD (7 - c) = true ∧
    cx.val = (x0.toNat + c) % 64 ∧ cy.val = (y0.toNat + r) % 32

/-- One toggle changes one pixel (R181). -/
@[simp] theorem Display.pixel_toggle (d : Display) (cx cx' : Fin 64) (cy cy' : Fin 32) :
    (d.toggle cx cy).pixel cx' cy' =
      if cx' = cx ∧ cy' = cy then !d.pixel cx' cy' else d.pixel cx' cy' := by
  simp only [Display.pixel, Display.toggle, Vector.getElem_set]
  by_cases hy : cy' = cy
  · subst hy
    simp only [if_true, BitVec.getLsbD_xor, BitVec.getLsbD_twoPow, and_true, Fin.ext_iff]
    by_cases hx : cx'.val = cx.val
    · simp [hx, cx.isLt]
    · simp [hx, Ne.symm hx]
  · have : cy.val ≠ cy'.val := fun h => hy (Fin.ext h.symm)
    simp [hy, this]

/-- Every pixel of the clear display is 0 (R121). -/
@[simp] theorem Display.pixel_clear (cx : Fin 64) (cy : Fin 32) :
    Display.clear.pixel cx cy = false := by
  simp [Display.pixel, Display.clear]

/-- Two displays with the same pixels are the same. -/
theorem Display.ext_pixel {d e : Display} (h : ∀ cx cy, d.pixel cx cy = e.pixel cx cy) : d = e := by
  obtain ⟨d⟩ := d
  obtain ⟨e⟩ := e
  congr 1
  refine Vector.ext fun k hk => BitVec.eq_of_getLsbD_eq fun j hj => ?_
  exact h ⟨j, hj⟩ ⟨k, hk⟩

/-- A blit that toggles exactly the pixels of `P`, none twice, and reports a collision exactly if one
of them was lit (R181, R183). -/
def Blit.Toggles (P : Fin 64 → Fin 32 → Prop) (b b' : Blit) : Prop :=
  (∀ cx cy, P cx cy → b'.display.pixel cx cy = !b.display.pixel cx cy) ∧
  (∀ cx cy, ¬ P cx cy → b'.display.pixel cx cy = b.display.pixel cx cy) ∧
  (b'.collision = true ↔
    b.collision = true ∨ ∃ cx cy, P cx cy ∧ b.display.pixel cx cy = true)

theorem Blit.Toggles.congr {P Q : Fin 64 → Fin 32 → Prop} {b b' : Blit}
    (h : Blit.Toggles P b b') (e : ∀ cx cy, P cx cy ↔ Q cx cy) : Blit.Toggles Q b b' := by
  have : P = Q := by funext cx cy; exact propext (e cx cy)
  exact this ▸ h

theorem Blit.toggles_refl (b : Blit) : Blit.Toggles (fun _ _ => False) b b := by
  simp [Blit.Toggles]

/-- Two blits of pixels they do not share, one after the other. -/
theorem Blit.Toggles.trans {P Q : Fin 64 → Fin 32 → Prop} {b b1 b2 : Blit}
    (h1 : Blit.Toggles P b b1) (h2 : Blit.Toggles Q b1 b2)
    (hd : ∀ cx cy, P cx cy → ¬ Q cx cy) : Blit.Toggles (fun cx cy => P cx cy ∨ Q cx cy) b b2 := by
  obtain ⟨p1, n1, c1⟩ := h1
  obtain ⟨p2, n2, c2⟩ := h2
  refine ⟨fun cx cy h => ?_, fun cx cy h => ?_, ?_⟩
  · rcases h with h | h
    · rw [n2 _ _ (hd _ _ h), p1 _ _ h]
    · rw [p2 _ _ h, n1 _ _ (fun hp => hd _ _ hp h)]
  · rw [n2 _ _ (fun hq => h (.inr hq)), n1 _ _ (fun hp => h (.inl hp))]
  · rw [c2, c1, or_assoc]
    refine or_congr_right ⟨?_, ?_⟩
    · rintro (⟨cx, cy, h, hl⟩ | ⟨cx, cy, h, hl⟩)
      · exact ⟨cx, cy, .inl h, hl⟩
      · exact ⟨cx, cy, .inr h, by rwa [n1 _ _ (fun hp => hd _ _ hp h)] at hl⟩
    · rintro ⟨cx, cy, h | h, hl⟩
      · exact .inl ⟨cx, cy, h, hl⟩
      · exact .inr ⟨cx, cy, h, by rwa [n1 _ _ (fun hp => hd _ _ hp h)]⟩

/-- One column offset toggles its pixel if the sprite's bit is set (R183). -/
theorem Blit.bit_toggles (x0 : Byte) (cy0 : Fin 32) (byte : Byte) (b : Blit) (c : Nat) :
    Blit.Toggles (fun cx cy => spriteBit byte c = true ∧ cx = spriteCol x0 c ∧ cy = cy0) b
      (Blit.bit x0 cy0 byte b c) := by
  by_cases hb : spriteBit byte c = true
  · simp only [Blit.bit, hb, if_true, Blit.plot, Blit.Toggles, true_and, Bool.or_eq_true]
    refine ⟨fun cx cy h => ?_, fun cx cy h => ?_, ?_⟩
    · simp [h]
    · simp [h]
    · simp
  · simp only [Blit.bit, hb, Bool.false_eq_true, if_false, false_and]
    exact Blit.toggles_refl b

/-- The offsets 0 to 7 of one row reach distinct columns (R183). -/
theorem spriteCol_injective {x0 : Byte} {c c' : Nat} (hc : c < 8) (hc' : c' < 8)
    (h : spriteCol x0 c = spriteCol x0 c') : c = c' := by
  simp only [spriteCol, Fin.ofNat, Fin.mk.injEq] at h
  omega

/-- Fewer than 32 sprite rows reach distinct display rows (R183). -/
theorem spriteRow_injective {y0 : Byte} {r r' : Nat} (hr : r < 32) (hr' : r' < 32)
    (h : spriteRow y0 r = spriteRow y0 r') : r = r' := by
  simp only [spriteRow, Fin.ofNat, Fin.mk.injEq] at h
  omega

theorem Blit.foldl_bit_toggles (x0 : Byte) (cy0 : Fin 32) (byte : Byte) (cs : List Nat) (b : Blit)
    (hnd : cs.Nodup) (hlt : ∀ c ∈ cs, c < 8) :
    Blit.Toggles
      (fun cx cy => ∃ c ∈ cs, spriteBit byte c = true ∧ cx = spriteCol x0 c ∧ cy = cy0) b
      (cs.foldl (Blit.bit x0 cy0 byte) b) := by
  induction cs generalizing b with
  | nil => simpa using Blit.toggles_refl b
  | cons c t ih =>
    obtain ⟨hc, ht⟩ := List.nodup_cons.1 hnd
    have h1 := Blit.bit_toggles x0 cy0 byte b c
    have h2 := ih (Blit.bit x0 cy0 byte b c) ht (fun d hd => hlt d (by simp [hd]))
    refine (h1.trans h2 ?_).congr (fun cx cy => by simp)
    rintro cx cy ⟨-, hx, -⟩ ⟨d, hd, -, hx', -⟩
    have := spriteCol_injective (hlt c (by simp)) (hlt d (by simp [hd])) (hx ▸ hx')
    exact hc (this ▸ hd)

/-- One sprite row toggles the pixels of its set bits (R181, R183). -/
theorem Blit.row_toggles (x0 : Byte) (cy0 : Fin 32) (byte : Byte) (b : Blit) :
    Blit.Toggles
      (fun cx cy => ∃ c < 8, spriteBit byte c = true ∧ cx = spriteCol x0 c ∧ cy = cy0) b
      (Blit.row x0 cy0 byte b) := by
  refine (Blit.foldl_bit_toggles x0 cy0 byte [0, 1, 2, 3, 4, 5, 6, 7] b (by decide)
    (by decide)).congr (fun cx cy => ?_)
  refine exists_congr fun c => and_congr_left' ?_
  simp only [List.mem_cons, List.not_mem_nil, or_false]
  omega

theorem Blit.rowsFrom_toggles (x0 y0 : Byte) (sprite : List Byte) (r0 : Nat) (b : Blit)
    (hlen : r0 + sprite.length ≤ 32) :
    Blit.Toggles
      (fun cx cy => ∃ (r : Nat) (h : r < sprite.length), ∃ c < 8, spriteBit sprite[r] c = true ∧
        cx = spriteCol x0 c ∧ cy = spriteRow y0 (r0 + r)) b
      (Blit.rowsFrom x0 y0 r0 sprite b) := by
  induction sprite generalizing r0 b with
  | nil => simpa [Blit.rowsFrom] using Blit.toggles_refl b
  | cons byte t ih =>
    simp only [List.length_cons] at hlen
    have h1 := Blit.row_toggles x0 (spriteRow y0 r0) byte b
    have h2 := ih (r0 + 1) (Blit.row x0 (spriteRow y0 r0) byte b) (by omega)
    refine (h1.trans h2 ?_).congr (fun cx cy => ⟨?_, ?_⟩)
    · rintro cx cy ⟨c, -, -, -, hy⟩ ⟨r, hr, c', -, -, -, hy'⟩
      have := spriteRow_injective (by omega) (by omega) (hy ▸ hy')
      omega
    · rintro (⟨c, hc, hb, hx, hy⟩ | ⟨r, hr, c, hc, hb, hx, hy⟩)
      · exact ⟨0, by simp, c, hc, hb, hx, hy⟩
      · exact ⟨r + 1, by simp [hr], c, hc, hb, hx, by rw [hy]; congr 1; omega⟩
    · rintro ⟨r, hr, c, hc, hb, hx, hy⟩
      cases r with
      | zero => exact .inl ⟨c, hc, hb, hx, hy⟩
      | succ r =>
        refine .inr ⟨r, by simpa using hr, c, hc, hb, hx, ?_⟩
        rw [hy]; congr 1; omega

/-- Everything a sprite draw does (R181 to R183): it toggles the pixels its set bits reach, leaves
every other pixel, and reports a collision exactly if one of those pixels was lit. -/
theorem Display.draw_spec (d : Display) (x0 y0 : Byte) (sprite : List Byte)
    (hlen : sprite.length ≤ 32) :
    Blit.Toggles (SpriteHits x0 y0 sprite) ⟨d, false⟩ (d.draw x0 y0 sprite) := by
  refine (Blit.rowsFrom_toggles x0 y0 sprite 0 ⟨d, false⟩ (by omega)).congr (fun cx cy => ?_)
  simp only [SpriteHits, spriteBit, spriteCol, spriteRow, Fin.ext_iff, Fin.ofNat, Nat.zero_add]

theorem rowsToNat_lt (l : List (BitVec 64)) : rowsToNat l < 2 ^ (64 * l.length) := by
  induction l with
  | nil => simp [rowsToNat]
  | cons r t ih =>
    have hr := r.isLt
    simp only [rowsToNat, List.length_cons]
    have : 2 ^ (64 * (t.length + 1)) = 2 ^ 64 * 2 ^ (64 * t.length) := by rw [← pow_add]; congr 1; ring
    rw [this]
    nlinarith

theorem rowsToNat_testBit (l : List (BitVec 64)) (k j : Nat) (hk : k < l.length) (hj : j < 64) :
    (rowsToNat l).testBit (k * 64 + j) = l[k].getLsbD j := by
  induction l generalizing k with
  | nil => simp at hk
  | cons r t ih =>
    simp only [rowsToNat, Nat.add_comm r.toNat]
    rw [Nat.testBit_two_pow_mul_add _ r.isLt]
    cases k with
    | zero => simp [hj, BitVec.getLsbD]
    | succ k =>
      have h1 : ¬ (k + 1) * 64 + j < 64 := by omega
      have h2 : (k + 1) * 64 + j - 64 = k * 64 + j := by omega
      rw [if_neg h1, h2, ih k (by simpa using hk)]
      simp

/-- The snapshot's bit order (R47): bit `cy * 64 + cx` is `D[cx][cy]`. -/
theorem Display.snapshot_getLsbD (d : Display) (cx : Fin 64) (cy : Fin 32) :
    d.snapshot.getLsbD (cy.val * 64 + cx.val) = d.pixel cx cy := by
  have h := rowsToNat_testBit d.rows.toList cy.val cx.val (by simp) cx.isLt
  have hlt := rowsToNat_lt d.rows.toList
  simp only [Vector.length_toList] at hlt
  simp only [Display.snapshot, BitVec.getLsbD_ofNat, h, Display.pixel, Vector.getElem_toList]
  simp; omega

end Sys2Proof.Machine
end

