-- ==== Sys2Proof/Laws/Memory.lean ====
section
/-! SUPPORT. What the memory operations do: a read after a write, the canonical form kept, and the
two transfers of several bytes in closed form. -/

namespace Sys2Proof.Machine

open Sys2Proof

theorem lookupCell_filter (a c : Nat) (l : List Host.Cell) :
    lookupCell c (l.filter (fun e => e.1 ≠ a)) = if c = a then none else lookupCell c l := by
  induction l with
  | nil => simp [lookupCell]
  | cons e t ih =>
    by_cases he : e.1 = a
    · simp only [List.filter_cons, he, ne_eq, not_true, decide_false, Bool.false_eq_true, if_false,
        lookupCell]
      rw [ih]
      by_cases hc : c = a
      · simp [hc]
      · simp [hc, Ne.symm hc]
    · simp only [List.filter_cons, ne_eq, he, not_false_iff, decide_true, if_true, lookupCell]
      rw [ih]
      by_cases hc : c = a
      · subst hc; simp [he]
      · simp [hc]

theorem lookupCell_insertCell (a c : Nat) (b : Byte) (l : List Host.Cell)
    (h : lookupCell a l = none) :
    lookupCell c (insertCell a b l) = if c = a then some b else lookupCell c l := by
  induction l with
  | nil => simp [insertCell, lookupCell, eq_comm]
  | cons e t ih =>
    simp only [lookupCell] at h
    split at h
    · simp at h
    · rename_i he
      simp only [insertCell]
      split
      · simp [lookupCell, eq_comm]
      · simp only [lookupCell, ih h]
        by_cases hc : c = a
        · subst hc; simp [he]
        · simp [hc]

@[simp] theorem Memory.set_font (m : Memory) (a : Nat) (b : Byte) : (m.set a b).font = m.font := rfl

@[simp] theorem Memory.set_background (m : Memory) (a c : Nat) (b : Byte) :
    (m.set a b).background c = m.background c := rfl

/-- Reading any address after writing one (R62, R66). -/
theorem Memory.get_set (m : Memory) (a c : Nat) (b : Byte) :
    (m.set a b).get c = if c = a then b else m.get c := by
  have hf := lookupCell_filter a
  simp only [Memory.get, Memory.set_background]
  simp only [Memory.set]
  by_cases hb : m.background a = b
  · simp only [hb, if_true, hf]
    by_cases hc : c = a
    · subst hc; simp [hb]
    · simp [hc]
  · simp only [hb, if_false]
    rw [lookupCell_insertCell _ _ _ _ (by rw [hf]; simp)]
    rw [hf]
    by_cases hc : c = a <;> simp [hc]

theorem Memory.read_eq (m : Memory) (a : Nat) :
    m.read a = if a < 4096 then some (m.get a) else none := rfl

/-- MemWrite answers exactly inside memory (R62, R68). -/
theorem Memory.write_eq (m : Memory) (a : Nat) (b : Byte) :
    m.write a b = if a < 4096 then some (m.set a b) else none := rfl

/-- Everything one MemWrite does: where it answers, and what every read gives afterwards (R62). -/
theorem Memory.write_spec {m m' : Memory} {a : Nat} {b : Byte} (h : m.write a b = some m') :
    a < 4096 ∧ m'.font = m.font ∧ ∀ c, m'.read c = if c = a then some b else m.read c := by
  rw [Memory.write_eq] at h
  split at h
  · rename_i ha
    cases h
    refine ⟨ha, rfl, fun c => ?_⟩
    simp only [Memory.read_eq, Memory.get_set]
    by_cases hc : c = a
    · simp [hc, ha]
    · simp [hc]
  · cases h

theorem mem_insertCell {a : Nat} {b : Byte} {e : Host.Cell} {l : List Host.Cell}
    (h : e ∈ insertCell a b l) : e = (a, b) ∨ e ∈ l := by
  induction l with
  | nil => simpa [insertCell] using h
  | cons d t ih =>
    simp only [insertCell] at h
    split at h
    · simpa using h
    · rcases List.mem_cons.1 h with h | h
      · simp [h]
      · rcases ih h with h | h <;> simp [h]

theorem insertCell_rising {a : Nat} {b : Byte} {l : List Host.Cell}
    (hs : l.Pairwise (fun c d => c.1 < d.1)) (ha : ∀ c ∈ l, c.1 ≠ a) :
    (insertCell a b l).Pairwise (fun c d => c.1 < d.1) := by
  induction l with
  | nil => simp [insertCell]
  | cons d t ih =>
    obtain ⟨hd, ht⟩ := List.pairwise_cons.1 hs
    simp only [insertCell]
    split
    · rename_i hlt
      refine List.pairwise_cons.2 ⟨fun e he => ?_, hs⟩
      rcases List.mem_cons.1 he with rfl | he
      · exact hlt
      · exact lt_trans hlt (hd e he)
    · rename_i hlt
      have hne := ha d (by simp)
      refine List.pairwise_cons.2 ⟨fun e he => ?_, ih ht (fun c hc => ha c (by simp [hc]))⟩
      rcases mem_insertCell he with rfl | he
      · simp only; omega
      · exact hd e he

/-- Writing a byte inside memory keeps the canonical form. -/
theorem Memory.set_wf {m : Memory} {a : Nat} {b : Byte} (h : m.wf) (ha : a < 4096) :
    (m.set a b).wf := by
  obtain ⟨hs, hm⟩ := h
  have hs' : (m.cells.filter (fun c => c.1 ≠ a)).Pairwise (fun c d => c.1 < d.1) := hs.filter _
  have hm' : ∀ c ∈ m.cells.filter (fun c => c.1 ≠ a),
      c.1 ≠ a ∧ c.1 < Config.memSize ∧ m.background c.1 ≠ c.2 := by
    intro c hc
    obtain ⟨h1, h2⟩ := List.mem_filter.1 hc
    exact ⟨by simpa using h2, hm c h1⟩
  by_cases hb : m.background a = b
  · have : (m.set a b).cells = m.cells.filter (fun c => c.1 ≠ a) := by simp [Memory.set, hb]
    refine ⟨by rw [this]; exact hs', fun c hc => ?_⟩
    rw [this] at hc
    exact (hm' c hc).2
  · have : (m.set a b).cells = insertCell a b (m.cells.filter (fun c => c.1 ≠ a)) := by
      simp [Memory.set, hb]
    refine ⟨by rw [this]; exact insertCell_rising hs' (fun c hc => (hm' c hc).1), fun c hc => ?_⟩
    rw [this] at hc
    rcases mem_insertCell hc with rfl | hc
    · exact ⟨ha, hb⟩
    · exact (hm' c hc).2

/-- MemWrite keeps the canonical form. -/
theorem Memory.write_wf {m m' : Memory} {a : Nat} {b : Byte} (h : m.wf)
    (hw : m.write a b = some m') : m'.wf := by
  rw [Memory.write_eq] at hw
  split at hw
  · cases hw; exact Memory.set_wf h ‹_›
  · cases hw

/-- Several bytes written keep the canonical form. -/
theorem Memory.writeRange_wf {m m' : Memory} {a : Nat} {bs : List Byte} (h : m.wf)
    (hw : m.writeRange a bs = some m') : m'.wf := by
  induction bs generalizing m a with
  | nil => cases hw; exact h
  | cons b t ih =>
    simp only [Memory.writeRange] at hw
    split at hw
    · cases hw
    · exact ih (Memory.write_wf h ‹_›) hw

/-- A transfer of no byte, or one that ends inside memory (R68). -/
abbrev RangeOk (a n : Nat) : Prop := n = 0 ∨ a + n ≤ 4096

/-- The byte reads in closed form (R63, R68). -/
theorem Memory.readRange_eq (m : Memory) (a n : Nat) :
    m.readRange a n =
      if RangeOk a n then some ((List.range n).map (fun k => m.get (a + k))) else none := by
  induction n generalizing a with
  | zero => simp [Memory.readRange]
  | succ n ih =>
    simp only [Memory.readRange, Memory.read_eq, ih]
    by_cases ha : a < 4096
    · by_cases hr : RangeOk (a + 1) n
      · have : RangeOk a (n + 1) := by simp only [RangeOk] at *; omega
        rw [if_pos this]
        simp only [ha, hr, if_true, List.range_succ_eq_map, List.map_cons, List.map_map]
        congr 1
        simp only [Nat.add_zero, List.cons.injEq, true_and]
        exact List.map_congr_left (fun k _ => by simp [Nat.add_assoc, Nat.add_comm 1])
      · have : ¬ RangeOk a (n + 1) := by simp only [RangeOk] at *; omega
        simp [ha, hr, this]
    · have : ¬ RangeOk a (n + 1) := by simp only [RangeOk] at *; omega
      simp [ha, this]

/-- Several byte writes answer exactly when they all fit (R68). -/
theorem Memory.writeRange_isSome (m : Memory) (a : Nat) (bs : List Byte) :
    (∃ m', m.writeRange a bs = some m') ↔ RangeOk a bs.length := by
  induction bs generalizing m a with
  | nil => simp [Memory.writeRange, RangeOk]
  | cons b t ih =>
    simp only [Memory.writeRange, Memory.write_eq]
    by_cases ha : a < 4096
    · simp only [ha, if_true, ih, RangeOk, List.length_cons]
      omega
    · simp [ha]
      omega

/-- Several byte writes answer nothing exactly when one does not fit (R68). -/
theorem Memory.writeRange_eq_none (m : Memory) (a : Nat) (bs : List Byte) :
    m.writeRange a bs = none ↔ ¬ RangeOk a bs.length := by
  rw [← Memory.writeRange_isSome m]
  cases m.writeRange a bs <;> simp

/-- Everything several byte writes do: the bytes land at ascending addresses, every other address
reads as before (R63, R65, R66). -/
theorem Memory.writeRange_spec {m m' : Memory} {a : Nat} {bs : List Byte}
    (h : m.writeRange a bs = some m') :
    m'.font = m.font ∧
    ∀ c, m'.read c = if h : a ≤ c ∧ c - a < bs.length then some (bs[c - a]'h.2) else m.read c := by
  induction bs generalizing m a with
  | nil => cases h; simp
  | cons b t ih =>
    simp only [Memory.writeRange] at h
    split at h
    · cases h
    · rename_i m1 hw
      obtain ⟨-, hf1, hr1⟩ := Memory.write_spec hw
      obtain ⟨hf, hr⟩ := ih h
      refine ⟨hf.trans hf1, fun c => ?_⟩
      rw [hr c, hr1 c]
      by_cases hc : c = a
      · subst hc; simp
      · by_cases h1 : a + 1 ≤ c ∧ c - (a + 1) < t.length
        · have h2 : a ≤ c ∧ c - a < (b :: t).length := by simp only [List.length_cons]; omega
          obtain ⟨k, hk⟩ : ∃ k, c - a = k + 1 := ⟨c - a - 1, by omega⟩
          have hk' : c - (a + 1) = k := by omega
          rw [dif_pos h1, dif_pos h2]
          simp [hk, hk']
        · have h2 : ¬ (a ≤ c ∧ c - a < (b :: t).length) := by simp only [List.length_cons]; omega
          rw [dif_neg h1, dif_neg h2, if_neg hc]

end Sys2Proof.Machine
end

