-- ==== Sys2Proof/Laws/State.lean ====
section
/-! SUPPORT. One lemma per field per update of the state, so that no proof unfolds a record update. -/

namespace Sys2Proof.Machine

open Sys2Proof

@[simp] theorem State.setReg_v (s : State) (r : Reg) (b : Byte) : (s.setReg r b).v = s.v.set r.val b := rfl
@[simp] theorem State.setReg_i (s : State) (r : Reg) (b : Byte) : (s.setReg r b).i = s.i := rfl
@[simp] theorem State.setReg_pc (s : State) (r : Reg) (b : Byte) : (s.setReg r b).pc = s.pc := rfl
@[simp] theorem State.setReg_sp (s : State) (r : Reg) (b : Byte) : (s.setReg r b).sp = s.sp := rfl
@[simp] theorem State.setReg_stk (s : State) (r : Reg) (b : Byte) : (s.setReg r b).stk = s.stk := rfl
@[simp] theorem State.setReg_dt (s : State) (r : Reg) (b : Byte) : (s.setReg r b).dt = s.dt := rfl
@[simp] theorem State.setReg_st (s : State) (r : Reg) (b : Byte) : (s.setReg r b).st = s.st := rfl
@[simp] theorem State.setReg_display (s : State) (r : Reg) (b : Byte) : (s.setReg r b).display = s.display := rfl
@[simp] theorem State.setReg_redraw (s : State) (r : Reg) (b : Byte) : (s.setReg r b).redraw = s.redraw := rfl
@[simp] theorem State.setReg_ms (s : State) (r : Reg) (b : Byte) : (s.setReg r b).ms = s.ms := rfl
@[simp] theorem State.setReg_cause (s : State) (r : Reg) (b : Byte) : (s.setReg r b).cause = s.cause := rfl
@[simp] theorem State.setReg_last (s : State) (r : Reg) (b : Byte) : (s.setReg r b).last = s.last := rfl
@[simp] theorem State.setReg_mem (s : State) (r : Reg) (b : Byte) : (s.setReg r b).mem = s.mem := rfl
@[simp] theorem State.setReg_entropy (s : State) (r : Reg) (b : Byte) : (s.setReg r b).entropy = s.entropy := rfl
@[simp] theorem State.setReg_draws (s : State) (r : Reg) (b : Byte) : (s.setReg r b).draws = s.draws := rfl

@[simp] theorem State.setI_v (s : State) (w : Word) : (s.setI w).v = s.v := rfl
@[simp] theorem State.setI_i (s : State) (w : Word) : (s.setI w).i = w := rfl
@[simp] theorem State.setI_pc (s : State) (w : Word) : (s.setI w).pc = s.pc := rfl
@[simp] theorem State.setI_sp (s : State) (w : Word) : (s.setI w).sp = s.sp := rfl
@[simp] theorem State.setI_stk (s : State) (w : Word) : (s.setI w).stk = s.stk := rfl
@[simp] theorem State.setI_dt (s : State) (w : Word) : (s.setI w).dt = s.dt := rfl
@[simp] theorem State.setI_st (s : State) (w : Word) : (s.setI w).st = s.st := rfl
@[simp] theorem State.setI_display (s : State) (w : Word) : (s.setI w).display = s.display := rfl
@[simp] theorem State.setI_redraw (s : State) (w : Word) : (s.setI w).redraw = s.redraw := rfl
@[simp] theorem State.setI_ms (s : State) (w : Word) : (s.setI w).ms = s.ms := rfl
@[simp] theorem State.setI_cause (s : State) (w : Word) : (s.setI w).cause = s.cause := rfl
@[simp] theorem State.setI_last (s : State) (w : Word) : (s.setI w).last = s.last := rfl
@[simp] theorem State.setI_mem (s : State) (w : Word) : (s.setI w).mem = s.mem := rfl
@[simp] theorem State.setI_entropy (s : State) (w : Word) : (s.setI w).entropy = s.entropy := rfl
@[simp] theorem State.setI_draws (s : State) (w : Word) : (s.setI w).draws = s.draws := rfl

@[simp] theorem State.setPc_v (s : State) (w : Word) : (s.setPc w).v = s.v := rfl
@[simp] theorem State.setPc_i (s : State) (w : Word) : (s.setPc w).i = s.i := rfl
@[simp] theorem State.setPc_pc (s : State) (w : Word) : (s.setPc w).pc = w := rfl
@[simp] theorem State.setPc_sp (s : State) (w : Word) : (s.setPc w).sp = s.sp := rfl
@[simp] theorem State.setPc_stk (s : State) (w : Word) : (s.setPc w).stk = s.stk := rfl
@[simp] theorem State.setPc_dt (s : State) (w : Word) : (s.setPc w).dt = s.dt := rfl
@[simp] theorem State.setPc_st (s : State) (w : Word) : (s.setPc w).st = s.st := rfl
@[simp] theorem State.setPc_display (s : State) (w : Word) : (s.setPc w).display = s.display := rfl
@[simp] theorem State.setPc_redraw (s : State) (w : Word) : (s.setPc w).redraw = s.redraw := rfl
@[simp] theorem State.setPc_ms (s : State) (w : Word) : (s.setPc w).ms = s.ms := rfl
@[simp] theorem State.setPc_cause (s : State) (w : Word) : (s.setPc w).cause = s.cause := rfl
@[simp] theorem State.setPc_last (s : State) (w : Word) : (s.setPc w).last = s.last := rfl
@[simp] theorem State.setPc_mem (s : State) (w : Word) : (s.setPc w).mem = s.mem := rfl
@[simp] theorem State.setPc_entropy (s : State) (w : Word) : (s.setPc w).entropy = s.entropy := rfl
@[simp] theorem State.setPc_draws (s : State) (w : Word) : (s.setPc w).draws = s.draws := rfl

@[simp] theorem State.setLast_v (s : State) (w : Word) : (s.setLast w).v = s.v := rfl
@[simp] theorem State.setLast_i (s : State) (w : Word) : (s.setLast w).i = s.i := rfl
@[simp] theorem State.setLast_pc (s : State) (w : Word) : (s.setLast w).pc = s.pc := rfl
@[simp] theorem State.setLast_sp (s : State) (w : Word) : (s.setLast w).sp = s.sp := rfl
@[simp] theorem State.setLast_stk (s : State) (w : Word) : (s.setLast w).stk = s.stk := rfl
@[simp] theorem State.setLast_dt (s : State) (w : Word) : (s.setLast w).dt = s.dt := rfl
@[simp] theorem State.setLast_st (s : State) (w : Word) : (s.setLast w).st = s.st := rfl
@[simp] theorem State.setLast_display (s : State) (w : Word) : (s.setLast w).display = s.display := rfl
@[simp] theorem State.setLast_redraw (s : State) (w : Word) : (s.setLast w).redraw = s.redraw := rfl
@[simp] theorem State.setLast_ms (s : State) (w : Word) : (s.setLast w).ms = s.ms := rfl
@[simp] theorem State.setLast_cause (s : State) (w : Word) : (s.setLast w).cause = s.cause := rfl
@[simp] theorem State.setLast_last (s : State) (w : Word) : (s.setLast w).last = w := rfl
@[simp] theorem State.setLast_mem (s : State) (w : Word) : (s.setLast w).mem = s.mem := rfl
@[simp] theorem State.setLast_entropy (s : State) (w : Word) : (s.setLast w).entropy = s.entropy := rfl
@[simp] theorem State.setLast_draws (s : State) (w : Word) : (s.setLast w).draws = s.draws := rfl

@[simp] theorem State.advance_v (s : State) : s.advance.v = s.v := rfl
@[simp] theorem State.advance_i (s : State) : s.advance.i = s.i := rfl
@[simp] theorem State.advance_pc (s : State) : s.advance.pc = s.pc + 2 := rfl
@[simp] theorem State.advance_sp (s : State) : s.advance.sp = s.sp := rfl
@[simp] theorem State.advance_stk (s : State) : s.advance.stk = s.stk := rfl
@[simp] theorem State.advance_dt (s : State) : s.advance.dt = s.dt := rfl
@[simp] theorem State.advance_st (s : State) : s.advance.st = s.st := rfl
@[simp] theorem State.advance_display (s : State) : s.advance.display = s.display := rfl
@[simp] theorem State.advance_redraw (s : State) : s.advance.redraw = s.redraw := rfl
@[simp] theorem State.advance_ms (s : State) : s.advance.ms = s.ms := rfl
@[simp] theorem State.advance_cause (s : State) : s.advance.cause = s.cause := rfl
@[simp] theorem State.advance_last (s : State) : s.advance.last = s.last := rfl
@[simp] theorem State.advance_mem (s : State) : s.advance.mem = s.mem := rfl
@[simp] theorem State.advance_entropy (s : State) : s.advance.entropy = s.entropy := rfl
@[simp] theorem State.advance_draws (s : State) : s.advance.draws = s.draws := rfl

@[simp] theorem State.showDisplay_v (s : State) (d : Display) : (s.showDisplay d).v = s.v := rfl
@[simp] theorem State.showDisplay_i (s : State) (d : Display) : (s.showDisplay d).i = s.i := rfl
@[simp] theorem State.showDisplay_pc (s : State) (d : Display) : (s.showDisplay d).pc = s.pc := rfl
@[simp] theorem State.showDisplay_sp (s : State) (d : Display) : (s.showDisplay d).sp = s.sp := rfl
@[simp] theorem State.showDisplay_stk (s : State) (d : Display) : (s.showDisplay d).stk = s.stk := rfl
@[simp] theorem State.showDisplay_dt (s : State) (d : Display) : (s.showDisplay d).dt = s.dt := rfl
@[simp] theorem State.showDisplay_st (s : State) (d : Display) : (s.showDisplay d).st = s.st := rfl
@[simp] theorem State.showDisplay_display (s : State) (d : Display) : (s.showDisplay d).display = d := rfl
@[simp] theorem State.showDisplay_redraw (s : State) (d : Display) : (s.showDisplay d).redraw = true := rfl
@[simp] theorem State.showDisplay_ms (s : State) (d : Display) : (s.showDisplay d).ms = s.ms := rfl
@[simp] theorem State.showDisplay_cause (s : State) (d : Display) : (s.showDisplay d).cause = s.cause := rfl
@[simp] theorem State.showDisplay_last (s : State) (d : Display) : (s.showDisplay d).last = s.last := rfl
@[simp] theorem State.showDisplay_mem (s : State) (d : Display) : (s.showDisplay d).mem = s.mem := rfl
@[simp] theorem State.showDisplay_entropy (s : State) (d : Display) : (s.showDisplay d).entropy = s.entropy := rfl
@[simp] theorem State.showDisplay_draws (s : State) (d : Display) : (s.showDisplay d).draws = s.draws := rfl

@[simp] theorem State.enterFault_v (s : State) (c : Cause) : (s.enterFault c).v = s.v := rfl
@[simp] theorem State.enterFault_i (s : State) (c : Cause) : (s.enterFault c).i = s.i := rfl
@[simp] theorem State.enterFault_pc (s : State) (c : Cause) : (s.enterFault c).pc = s.pc := rfl
@[simp] theorem State.enterFault_sp (s : State) (c : Cause) : (s.enterFault c).sp = s.sp := rfl
@[simp] theorem State.enterFault_stk (s : State) (c : Cause) : (s.enterFault c).stk = s.stk := rfl
@[simp] theorem State.enterFault_dt (s : State) (c : Cause) : (s.enterFault c).dt = s.dt := rfl
@[simp] theorem State.enterFault_st (s : State) (c : Cause) : (s.enterFault c).st = s.st := rfl
@[simp] theorem State.enterFault_display (s : State) (c : Cause) : (s.enterFault c).display = s.display := rfl
@[simp] theorem State.enterFault_redraw (s : State) (c : Cause) : (s.enterFault c).redraw = s.redraw := rfl
@[simp] theorem State.enterFault_ms (s : State) (c : Cause) : (s.enterFault c).ms = .faulted := rfl
@[simp] theorem State.enterFault_cause (s : State) (c : Cause) : (s.enterFault c).cause = c := rfl
@[simp] theorem State.enterFault_last (s : State) (c : Cause) : (s.enterFault c).last = s.last := rfl
@[simp] theorem State.enterFault_mem (s : State) (c : Cause) : (s.enterFault c).mem = s.mem := rfl
@[simp] theorem State.enterFault_entropy (s : State) (c : Cause) : (s.enterFault c).entropy = s.entropy := rfl
@[simp] theorem State.enterFault_draws (s : State) (c : Cause) : (s.enterFault c).draws = s.draws := rfl

@[simp] theorem State.setMem_v (s : State) (m : Memory) : (s.setMem m).v = s.v := rfl
@[simp] theorem State.setMem_i (s : State) (m : Memory) : (s.setMem m).i = s.i := rfl
@[simp] theorem State.setMem_pc (s : State) (m : Memory) : (s.setMem m).pc = s.pc := rfl
@[simp] theorem State.setMem_sp (s : State) (m : Memory) : (s.setMem m).sp = s.sp := rfl
@[simp] theorem State.setMem_stk (s : State) (m : Memory) : (s.setMem m).stk = s.stk := rfl
@[simp] theorem State.setMem_dt (s : State) (m : Memory) : (s.setMem m).dt = s.dt := rfl
@[simp] theorem State.setMem_st (s : State) (m : Memory) : (s.setMem m).st = s.st := rfl
@[simp] theorem State.setMem_display (s : State) (m : Memory) : (s.setMem m).display = s.display := rfl
@[simp] theorem State.setMem_redraw (s : State) (m : Memory) : (s.setMem m).redraw = s.redraw := rfl
@[simp] theorem State.setMem_ms (s : State) (m : Memory) : (s.setMem m).ms = s.ms := rfl
@[simp] theorem State.setMem_cause (s : State) (m : Memory) : (s.setMem m).cause = s.cause := rfl
@[simp] theorem State.setMem_last (s : State) (m : Memory) : (s.setMem m).last = s.last := rfl
@[simp] theorem State.setMem_mem (s : State) (m : Memory) : (s.setMem m).mem = m := rfl
@[simp] theorem State.setMem_entropy (s : State) (m : Memory) : (s.setMem m).entropy = s.entropy := rfl
@[simp] theorem State.setMem_draws (s : State) (m : Memory) : (s.setMem m).draws = s.draws := rfl

@[simp] theorem State.setRegs_v (s : State) (v : Vector Byte 16) : (s.setRegs v).v = v := rfl
@[simp] theorem State.setRegs_i (s : State) (v : Vector Byte 16) : (s.setRegs v).i = s.i := rfl
@[simp] theorem State.setRegs_pc (s : State) (v : Vector Byte 16) : (s.setRegs v).pc = s.pc := rfl
@[simp] theorem State.setRegs_sp (s : State) (v : Vector Byte 16) : (s.setRegs v).sp = s.sp := rfl
@[simp] theorem State.setRegs_stk (s : State) (v : Vector Byte 16) : (s.setRegs v).stk = s.stk := rfl
@[simp] theorem State.setRegs_dt (s : State) (v : Vector Byte 16) : (s.setRegs v).dt = s.dt := rfl
@[simp] theorem State.setRegs_st (s : State) (v : Vector Byte 16) : (s.setRegs v).st = s.st := rfl
@[simp] theorem State.setRegs_display (s : State) (v : Vector Byte 16) : (s.setRegs v).display = s.display := rfl
@[simp] theorem State.setRegs_redraw (s : State) (v : Vector Byte 16) : (s.setRegs v).redraw = s.redraw := rfl
@[simp] theorem State.setRegs_ms (s : State) (v : Vector Byte 16) : (s.setRegs v).ms = s.ms := rfl
@[simp] theorem State.setRegs_cause (s : State) (v : Vector Byte 16) : (s.setRegs v).cause = s.cause := rfl
@[simp] theorem State.setRegs_last (s : State) (v : Vector Byte 16) : (s.setRegs v).last = s.last := rfl
@[simp] theorem State.setRegs_mem (s : State) (v : Vector Byte 16) : (s.setRegs v).mem = s.mem := rfl
@[simp] theorem State.setRegs_entropy (s : State) (v : Vector Byte 16) : (s.setRegs v).entropy = s.entropy := rfl
@[simp] theorem State.setRegs_draws (s : State) (v : Vector Byte 16) : (s.setRegs v).draws = s.draws := rfl

@[simp] theorem State.halt_v (s : State) : s.halt.v = s.v := rfl
@[simp] theorem State.halt_i (s : State) : s.halt.i = s.i := rfl
@[simp] theorem State.halt_pc (s : State) : s.halt.pc = s.pc := rfl
@[simp] theorem State.halt_sp (s : State) : s.halt.sp = s.sp := rfl
@[simp] theorem State.halt_stk (s : State) : s.halt.stk = s.stk := rfl
@[simp] theorem State.halt_dt (s : State) : s.halt.dt = s.dt := rfl
@[simp] theorem State.halt_st (s : State) : s.halt.st = s.st := rfl
@[simp] theorem State.halt_display (s : State) : s.halt.display = s.display := rfl
@[simp] theorem State.halt_redraw (s : State) : s.halt.redraw = s.redraw := rfl
@[simp] theorem State.halt_ms (s : State) : s.halt.ms = .halted := rfl
@[simp] theorem State.halt_cause (s : State) : s.halt.cause = s.cause := rfl
@[simp] theorem State.halt_last (s : State) : s.halt.last = s.last := rfl
@[simp] theorem State.halt_mem (s : State) : s.halt.mem = s.mem := rfl
@[simp] theorem State.halt_entropy (s : State) : s.halt.entropy = s.entropy := rfl
@[simp] theorem State.halt_draws (s : State) : s.halt.draws = s.draws := rfl

@[simp] theorem State.setEntropy_v (s : State) (r : Option Byte) : (s.setEntropy r).v = s.v := rfl
@[simp] theorem State.setEntropy_i (s : State) (r : Option Byte) : (s.setEntropy r).i = s.i := rfl
@[simp] theorem State.setEntropy_pc (s : State) (r : Option Byte) : (s.setEntropy r).pc = s.pc := rfl
@[simp] theorem State.setEntropy_sp (s : State) (r : Option Byte) : (s.setEntropy r).sp = s.sp := rfl
@[simp] theorem State.setEntropy_stk (s : State) (r : Option Byte) : (s.setEntropy r).stk = s.stk := rfl
@[simp] theorem State.setEntropy_dt (s : State) (r : Option Byte) : (s.setEntropy r).dt = s.dt := rfl
@[simp] theorem State.setEntropy_st (s : State) (r : Option Byte) : (s.setEntropy r).st = s.st := rfl
@[simp] theorem State.setEntropy_display (s : State) (r : Option Byte) : (s.setEntropy r).display = s.display := rfl
@[simp] theorem State.setEntropy_redraw (s : State) (r : Option Byte) : (s.setEntropy r).redraw = s.redraw := rfl
@[simp] theorem State.setEntropy_ms (s : State) (r : Option Byte) : (s.setEntropy r).ms = s.ms := rfl
@[simp] theorem State.setEntropy_cause (s : State) (r : Option Byte) : (s.setEntropy r).cause = s.cause := rfl
@[simp] theorem State.setEntropy_last (s : State) (r : Option Byte) : (s.setEntropy r).last = s.last := rfl
@[simp] theorem State.setEntropy_mem (s : State) (r : Option Byte) : (s.setEntropy r).mem = s.mem := rfl
@[simp] theorem State.setEntropy_entropy (s : State) (r : Option Byte) : (s.setEntropy r).entropy = r := rfl
@[simp] theorem State.setEntropy_draws (s : State) (r : Option Byte) : (s.setEntropy r).draws = s.draws := rfl

@[simp] theorem State.useDraw_v (s : State) : s.useDraw.v = s.v := rfl
@[simp] theorem State.useDraw_i (s : State) : s.useDraw.i = s.i := rfl
@[simp] theorem State.useDraw_pc (s : State) : s.useDraw.pc = s.pc := rfl
@[simp] theorem State.useDraw_sp (s : State) : s.useDraw.sp = s.sp := rfl
@[simp] theorem State.useDraw_stk (s : State) : s.useDraw.stk = s.stk := rfl
@[simp] theorem State.useDraw_dt (s : State) : s.useDraw.dt = s.dt := rfl
@[simp] theorem State.useDraw_st (s : State) : s.useDraw.st = s.st := rfl
@[simp] theorem State.useDraw_display (s : State) : s.useDraw.display = s.display := rfl
@[simp] theorem State.useDraw_redraw (s : State) : s.useDraw.redraw = s.redraw := rfl
@[simp] theorem State.useDraw_ms (s : State) : s.useDraw.ms = s.ms := rfl
@[simp] theorem State.useDraw_cause (s : State) : s.useDraw.cause = s.cause := rfl
@[simp] theorem State.useDraw_last (s : State) : s.useDraw.last = s.last := rfl
@[simp] theorem State.useDraw_mem (s : State) : s.useDraw.mem = s.mem := rfl
@[simp] theorem State.useDraw_entropy (s : State) : s.useDraw.entropy = none := rfl
@[simp] theorem State.useDraw_draws (s : State) : s.useDraw.draws = s.draws + 1 := rfl

@[simp] theorem State.skipIf_v (s : State) (c : Bool) : (s.skipIf c).v = s.v := by
  cases c <;> rfl
@[simp] theorem State.skipIf_i (s : State) (c : Bool) : (s.skipIf c).i = s.i := by
  cases c <;> rfl
@[simp] theorem State.skipIf_pc (s : State) (c : Bool) : (s.skipIf c).pc = s.pc + (if c then 4 else 2) := by
  cases c <;> rfl
@[simp] theorem State.skipIf_sp (s : State) (c : Bool) : (s.skipIf c).sp = s.sp := by
  cases c <;> rfl
@[simp] theorem State.skipIf_stk (s : State) (c : Bool) : (s.skipIf c).stk = s.stk := by
  cases c <;> rfl
@[simp] theorem State.skipIf_dt (s : State) (c : Bool) : (s.skipIf c).dt = s.dt := by
  cases c <;> rfl
@[simp] theorem State.skipIf_st (s : State) (c : Bool) : (s.skipIf c).st = s.st := by
  cases c <;> rfl
@[simp] theorem State.skipIf_display (s : State) (c : Bool) : (s.skipIf c).display = s.display := by
  cases c <;> rfl
@[simp] theorem State.skipIf_redraw (s : State) (c : Bool) : (s.skipIf c).redraw = s.redraw := by
  cases c <;> rfl
@[simp] theorem State.skipIf_ms (s : State) (c : Bool) : (s.skipIf c).ms = s.ms := by
  cases c <;> rfl
@[simp] theorem State.skipIf_cause (s : State) (c : Bool) : (s.skipIf c).cause = s.cause := by
  cases c <;> rfl
@[simp] theorem State.skipIf_last (s : State) (c : Bool) : (s.skipIf c).last = s.last := by
  cases c <;> rfl
@[simp] theorem State.skipIf_mem (s : State) (c : Bool) : (s.skipIf c).mem = s.mem := by
  cases c <;> rfl
@[simp] theorem State.skipIf_entropy (s : State) (c : Bool) : (s.skipIf c).entropy = s.entropy := by
  cases c <;> rfl
@[simp] theorem State.skipIf_draws (s : State) (c : Bool) : (s.skipIf c).draws = s.draws := by
  cases c <;> rfl

@[simp] theorem State.tick_v (s : State) : s.tick.v = s.v := rfl
@[simp] theorem State.tick_i (s : State) : s.tick.i = s.i := rfl
@[simp] theorem State.tick_pc (s : State) : s.tick.pc = s.pc := rfl
@[simp] theorem State.tick_sp (s : State) : s.tick.sp = s.sp := rfl
@[simp] theorem State.tick_stk (s : State) : s.tick.stk = s.stk := rfl
@[simp] theorem State.tick_dt (s : State) : s.tick.dt = tickTimer s.dt := rfl
@[simp] theorem State.tick_st (s : State) : s.tick.st = tickTimer s.st := rfl
@[simp] theorem State.tick_display (s : State) : s.tick.display = s.display := rfl
@[simp] theorem State.tick_redraw (s : State) : s.tick.redraw = s.redraw := rfl
@[simp] theorem State.tick_ms (s : State) : s.tick.ms = s.ms := rfl
@[simp] theorem State.tick_cause (s : State) : s.tick.cause = s.cause := rfl
@[simp] theorem State.tick_last (s : State) : s.tick.last = s.last := rfl
@[simp] theorem State.tick_mem (s : State) : s.tick.mem = s.mem := rfl
@[simp] theorem State.tick_entropy (s : State) : s.tick.entropy = s.entropy := rfl
@[simp] theorem State.tick_draws (s : State) : s.tick.draws = s.draws := rfl

@[simp] theorem State.consumeRedraw_v (s : State) : s.consumeRedraw.v = s.v := rfl
@[simp] theorem State.consumeRedraw_i (s : State) : s.consumeRedraw.i = s.i := rfl
@[simp] theorem State.consumeRedraw_pc (s : State) : s.consumeRedraw.pc = s.pc := rfl
@[simp] theorem State.consumeRedraw_sp (s : State) : s.consumeRedraw.sp = s.sp := rfl
@[simp] theorem State.consumeRedraw_stk (s : State) : s.consumeRedraw.stk = s.stk := rfl
@[simp] theorem State.consumeRedraw_dt (s : State) : s.consumeRedraw.dt = s.dt := rfl
@[simp] theorem State.consumeRedraw_st (s : State) : s.consumeRedraw.st = s.st := rfl
@[simp] theorem State.consumeRedraw_display (s : State) : s.consumeRedraw.display = s.display := rfl
@[simp] theorem State.consumeRedraw_redraw (s : State) : s.consumeRedraw.redraw = false := rfl
@[simp] theorem State.consumeRedraw_ms (s : State) : s.consumeRedraw.ms = s.ms := rfl
@[simp] theorem State.consumeRedraw_cause (s : State) : s.consumeRedraw.cause = s.cause := rfl
@[simp] theorem State.consumeRedraw_last (s : State) : s.consumeRedraw.last = s.last := rfl
@[simp] theorem State.consumeRedraw_mem (s : State) : s.consumeRedraw.mem = s.mem := rfl
@[simp] theorem State.consumeRedraw_entropy (s : State) : s.consumeRedraw.entropy = s.entropy := rfl
@[simp] theorem State.consumeRedraw_draws (s : State) : s.consumeRedraw.draws = s.draws := rfl

@[simp] theorem State.setFlagThenReg_v (s : State) (g : Bool) (x : Reg) (b : Byte) :
    (s.setFlagThenReg g x b).v = (s.v.set Reg.vf.val (flagByte g)).set x.val b := rfl
@[simp] theorem State.setFlagThenReg_i (s : State) (g : Bool) (x : Reg) (b : Byte) :
    (s.setFlagThenReg g x b).i = s.i := rfl
@[simp] theorem State.setFlagThenReg_pc (s : State) (g : Bool) (x : Reg) (b : Byte) :
    (s.setFlagThenReg g x b).pc = s.pc := rfl
@[simp] theorem State.setFlagThenReg_sp (s : State) (g : Bool) (x : Reg) (b : Byte) :
    (s.setFlagThenReg g x b).sp = s.sp := rfl
@[simp] theorem State.setFlagThenReg_stk (s : State) (g : Bool) (x : Reg) (b : Byte) :
    (s.setFlagThenReg g x b).stk = s.stk := rfl
@[simp] theorem State.setFlagThenReg_dt (s : State) (g : Bool) (x : Reg) (b : Byte) :
    (s.setFlagThenReg g x b).dt = s.dt := rfl
@[simp] theorem State.setFlagThenReg_st (s : State) (g : Bool) (x : Reg) (b : Byte) :
    (s.setFlagThenReg g x b).st = s.st := rfl
@[simp] theorem State.setFlagThenReg_display (s : State) (g : Bool) (x : Reg) (b : Byte) :
    (s.setFlagThenReg g x b).display = s.display := rfl
@[simp] theorem State.setFlagThenReg_redraw (s : State) (g : Bool) (x : Reg) (b : Byte) :
    (s.setFlagThenReg g x b).redraw = s.redraw := rfl
@[simp] theorem State.setFlagThenReg_ms (s : State) (g : Bool) (x : Reg) (b : Byte) :
    (s.setFlagThenReg g x b).ms = s.ms := rfl
@[simp] theorem State.setFlagThenReg_cause (s : State) (g : Bool) (x : Reg) (b : Byte) :
    (s.setFlagThenReg g x b).cause = s.cause := rfl
@[simp] theorem State.setFlagThenReg_last (s : State) (g : Bool) (x : Reg) (b : Byte) :
    (s.setFlagThenReg g x b).last = s.last := rfl
@[simp] theorem State.setFlagThenReg_mem (s : State) (g : Bool) (x : Reg) (b : Byte) :
    (s.setFlagThenReg g x b).mem = s.mem := rfl
@[simp] theorem State.setFlagThenReg_entropy (s : State) (g : Bool) (x : Reg) (b : Byte) :
    (s.setFlagThenReg g x b).entropy = s.entropy := rfl
@[simp] theorem State.setFlagThenReg_draws (s : State) (g : Bool) (x : Reg) (b : Byte) :
    (s.setFlagThenReg g x b).draws = s.draws := rfl

/-- Reading a register after writing one (R8, R20). -/
@[simp] theorem State.reg_setReg (s : State) (x r : Reg) (b : Byte) :
    (s.setReg x b).reg r = if r = x then b else s.reg r := by
  simp only [State.reg, State.setReg, Vector.getElem_set, Fin.ext_iff, eq_comm]

/-- Reading a register after a flag-writing instruction's two writes (R171). -/
@[simp] theorem State.reg_setFlagThenReg (s : State) (g : Bool) (x r : Reg) (b : Byte) :
    (s.setFlagThenReg g x b).reg r =
      if r = x then b else if r = Reg.vf then flagByte g else s.reg r := by
  simp only [State.setFlagThenReg, State.reg_setReg]

/-- A register reads the same in two states with the same register file. -/
theorem State.reg_congr {s t : State} (h : t.v = s.v) (r : Reg) : t.reg r = s.reg r := by
  simp only [State.reg, h]

@[simp] theorem State.reg_setI (s : State) (w : Word) (r : Reg) : (s.setI w).reg r = s.reg r := rfl
@[simp] theorem State.reg_setPc (s : State) (w : Word) (r : Reg) : (s.setPc w).reg r = s.reg r := rfl
@[simp] theorem State.reg_setLast (s : State) (w : Word) (r : Reg) :
    (s.setLast w).reg r = s.reg r := rfl
@[simp] theorem State.reg_advance (s : State) (r : Reg) : s.advance.reg r = s.reg r := rfl
@[simp] theorem State.reg_setMem (s : State) (m : Memory) (r : Reg) :
    (s.setMem m).reg r = s.reg r := rfl
@[simp] theorem State.reg_halt (s : State) (r : Reg) : s.halt.reg r = s.reg r := rfl
@[simp] theorem State.reg_setEntropy (s : State) (e : Option Byte) (r : Reg) :
    (s.setEntropy e).reg r = s.reg r := rfl
@[simp] theorem State.reg_useDraw (s : State) (r : Reg) : s.useDraw.reg r = s.reg r := rfl
@[simp] theorem State.reg_skipIf (s : State) (c : Bool) (r : Reg) :
    (s.skipIf c).reg r = s.reg r := State.reg_congr (by simp) r
@[simp] theorem State.reg_showDisplay (s : State) (d : Display) (r : Reg) :
    (s.showDisplay d).reg r = s.reg r := rfl
@[simp] theorem State.reg_enterFault (s : State) (c : Cause) (r : Reg) :
    (s.enterFault c).reg r = s.reg r := rfl
@[simp] theorem State.reg_tick (s : State) (r : Reg) : s.tick.reg r = s.reg r := rfl
@[simp] theorem State.reg_consumeRedraw (s : State) (r : Reg) :
    s.consumeRedraw.reg r = s.reg r := rfl

end Sys2Proof.Machine
end

