-- ==== Sys2Proof/Laws/Operands.lean ====
section
/-! SUPPORT. Register ranges, the flag values, and widening by zeros. -/

namespace Sys2Proof.Machine

open Sys2Proof

/-- The registers a store moves: `V[k]` is the `k`-th byte, for `k` up to `x` (R192). -/
@[simp] theorem State.length_regsUpTo (s : State) (x : Reg) :
    (s.regsUpTo x).length = x.val + 1 := by
  simp only [State.regsUpTo, List.length_take, Vector.length_toList]
  omega

theorem State.getElem_regsUpTo (s : State) (x : Reg) (k : Nat) (h : k < (s.regsUpTo x).length) :
    (s.regsUpTo x)[k] = s.reg ⟨k, by simp at h; omega⟩ := by
  simp [State.regsUpTo, State.reg]

/-- Everything a register-range load does: register `k + j` takes byte `j` (R193). -/
theorem loadRegsFrom_getElem (v : Vector Byte 16) (k : Nat) (bs : List Byte) (j : Nat) (hj : j < 16) :
    (loadRegsFrom v k bs)[j] =
      if h : k ≤ j ∧ j - k < bs.length then bs[j - k]'h.2 else v[j] := by
  induction bs generalizing v k with
  | nil => simp [loadRegsFrom]
  | cons b t ih =>
    simp only [loadRegsFrom, ih, Vector.getElem_setIfInBounds]
    by_cases hk : j = k
    · subst hk; simp
    · by_cases h1 : k + 1 ≤ j ∧ j - (k + 1) < t.length
      · have h2 : k ≤ j ∧ j - k < (b :: t).length := by simp only [List.length_cons]; omega
        obtain ⟨q, hq⟩ : ∃ q, j - k = q + 1 := ⟨j - k - 1, by omega⟩
        have hq' : j - (k + 1) = q := by omega
        rw [dif_pos h1, dif_pos h2]
        simp [hq, hq']
      · have h2 : ¬ (k ≤ j ∧ j - k < (b :: t).length) := by simp only [List.length_cons]; omega
        rw [dif_neg h1, dif_neg h2, if_neg (Ne.symm hk)]

/-- A flag is 0 or 1 (R21). -/
theorem flagByte_toNat (f : Bool) : (flagByte f).toNat = if f then 1 else 0 := by
  cases f <;> rfl

@[simp] theorem flagByte_true : flagByte true = 1 := rfl
@[simp] theorem flagByte_false : flagByte false = 0 := rfl

/-- `zext_16` keeps the value (R7). -/
@[simp] theorem Byte.toNat_zext16 (b : Byte) : (Byte.zext16 b).toNat = b.toNat := by
  have := b.isLt
  simp only [Byte.zext16, BitVec.toNat_setWidth]
  omega

@[simp] theorem Addr.toNat_zext16 (a : Addr) : (Addr.zext16 a).toNat = a.toNat := by
  have := a.isLt
  simp only [Addr.zext16, BitVec.toNat_setWidth]
  omega

/-- A timer goes down by 1 and stays at 0 (R208). -/
theorem tickTimer_toNat (t : Byte) : (tickTimer t).toNat = t.toNat - 1 := by
  have := t.isLt
  simp only [tickTimer]
  split
  · have h1 : (1 : Byte).toNat = 1 := rfl
    rw [BitVec.toNat_sub, h1]
    omega
  · omega

end Sys2Proof.Machine
end

