-- ==== Sys2Proof/Laws/Ops.lean ====
section
/-! SUPPORT. What the shared operations can do, each said once: the stack, the fetch, the placing of a
word, one instruction's possible effects on the control state and memory, and one step's cases. -/

namespace Sys2Proof.Machine

open Sys2Proof

/-- A push answers nothing exactly when the stack is full (R132). -/
theorem State.push_eq_none (s : State) (w : Word) : s.push w = none ↔ s.sp.val = 16 := by
  have := s.sp.isLt
  simp only [State.push, Config.stackDepth]
  split <;> simp <;> omega

/-- Everything a push does (R25, R132). -/
theorem State.push_eq_some (s : State) (w : Word) (h : s.sp.val < 16) :
    s.push w = some { s with stk := s.stk.set s.sp.val w, sp := ⟨s.sp.val + 1, by omega⟩ } :=
  dif_pos h

/-- A pop answers nothing exactly when the stack is empty (R122). -/
theorem State.pop_eq_none (s : State) : s.pop = none ↔ s.sp.val = 0 := by
  simp only [State.pop]
  split <;> simp <;> omega

/-- Everything a pop does (R25, R122). -/
theorem State.pop_eq_some (s : State) (h : s.sp.val ≠ 0) :
    s.pop = some (s.stk[s.sp.val - 1]'(by omega), { s with sp := ⟨s.sp.val - 1, by omega⟩ }) :=
  dif_neg h

/-- The fetch in closed form: two bytes, big-endian, for every PC up to 0xFFE (R63, R64, R68). -/
theorem State.fetch_eq (s : State) :
    s.fetch = if s.pc.toNat ≤ 0xFFE then
      some (wordOfBytes (s.mem.get s.pc.toNat) (s.mem.get (s.pc.toNat + 1))) else none := by
  simp only [State.fetch, Memory.read_eq]
  by_cases h : s.pc.toNat ≤ 0xFFE
  · have h1 : s.pc.toNat < 4096 := by omega
    have h2 : s.pc.toNat + 1 < 4096 := by omega
    simp [h, h1, h2]
  · have h2 : ¬ s.pc.toNat + 1 < 4096 := by omega
    by_cases h1 : s.pc.toNat < 4096 <;> simp [h, h1, h2]

/-- A fetch looks at PC and memory only (R91). -/
theorem State.fetch_congr {s t : State} (hp : t.pc = s.pc) (hm : t.mem = s.mem) :
    t.fetch = s.fetch := by
  simp only [State.fetch, hp, hm]

/-- A word placed at a PC that can be fetched from is what the next fetch reads. -/
theorem State.fetch_placeWord (s : State) (w : Word) (h : s.pc.toNat ≤ 0xFFE) :
    (s.placeWord w).fetch = some w := by
  obtain ⟨m, hm⟩ := (Memory.writeRange_isSome s.mem s.pc.toNat (bytesOfWord w)).2
    (by simp only [RangeOk, bytesOfWord, List.length_cons, List.length_nil]; omega)
  obtain ⟨-, hr⟩ := Memory.writeRange_spec hm
  have h0 := hr s.pc.toNat
  have h1 := hr (s.pc.toNat + 1)
  simp [bytesOfWord] at h0 h1
  simp [State.placeWord, hm, State.fetch, h0, h1, wordOfBytes_bytesOfWord]

/-- Placing a word changes memory only. -/
theorem State.placeWord_eq (s : State) (w : Word) :
    s.placeWord w = { s with mem := (s.placeWord w).mem } := by
  simp only [State.placeWord]
  split <;> rfl

/-- What an instruction can do to memory: nothing, or store a range of bytes at I (R12, R65). -/
def MemEffect (s t : State) : Prop :=
  t.mem = s.mem ∨ ∃ bs, s.mem.writeRange s.i.toNat bs = some t.mem

/-- What an instruction can do to MS and CAUSE: nothing, halt, or enter a fault (R30, R202). -/
def ControlEffect (s t : State) : Prop :=
  (t.ms = s.ms ∧ t.cause = s.cause) ∨ (t.ms = .halted ∧ t.cause = s.cause) ∨
  (t.ms = .faulted ∧ t.cause ≠ .none)

/-- What an instruction can do to the parts few instructions touch. -/
def Effect (s : State) : Result → Prop
  | .next t => MemEffect s t ∧ ControlEffect s t ∧ t.dt = s.dt ∧ t.st = s.st ∧ t.last = s.last
  | .fault _ => False
  | .refused _ => False

theorem effect_plain {s t : State} (hm : t.mem = s.mem) (h1 : t.ms = s.ms) (h2 : t.cause = s.cause)
    (h3 : t.dt = s.dt) (h4 : t.st = s.st) (h5 : t.last = s.last) : Effect s (.next t) :=
  ⟨.inl hm, .inl ⟨h1, h2⟩, h3, h4, h5⟩

theorem effect_raiseFault (s : State) {c : Cause} (hc : c ≠ .none) : Effect s (raiseFault c s) :=
  ⟨.inl rfl, .inr (.inr ⟨rfl, hc⟩), rfl, rfl, rfl⟩

theorem execRet_effect (s : State) : Effect s (execRet s) := by
  simp only [execRet]
  by_cases h : s.sp.val = 0
  · rw [(State.pop_eq_none s).2 h]
    exact effect_raiseFault s (by decide)
  · rw [State.pop_eq_some s h]
    exact effect_plain rfl rfl rfl rfl rfl rfl

theorem execCall_effect (nnn : Addr) (s : State) : Effect s (execCall nnn s) := by
  simp only [execCall]
  by_cases h : s.sp.val < 16
  · rw [State.push_eq_some s s.pc h]
    exact effect_plain rfl rfl rfl rfl rfl rfl
  · rw [(State.push_eq_none s s.pc).2 (by omega)]
    exact effect_raiseFault s (by decide)

theorem execDrw_effect (x y : Reg) (n : Count) (s : State) : Effect s (execDrw x y n s) := by
  simp only [execDrw]
  split
  · exact effect_raiseFault s (by decide)
  · exact effect_plain rfl rfl rfl rfl rfl rfl

theorem execStoreRegs_effect (x : Reg) (s : State) : Effect s (execStoreRegs x s) := by
  simp only [execStoreRegs]
  split
  · exact effect_raiseFault s (by decide)
  · rename_i m hm
    exact ⟨.inr ⟨_, hm⟩, .inl ⟨rfl, rfl⟩, rfl, rfl, rfl⟩

theorem execLoadRegs_effect (x : Reg) (s : State) : Effect s (execLoadRegs x s) := by
  simp only [execLoadRegs]
  split
  · exact effect_raiseFault s (by decide)
  · exact effect_plain rfl rfl rfl rfl rfl rfl

theorem effect_skipIf (s : State) (c : Bool) : Effect s (.next (s.skipIf c)) :=
  effect_plain (by simp) (by simp) (by simp) (by simp) (by simp) (by simp)

/-- Every instruction answers a next state, and its effects on memory, MS, CAUSE, the timers and LAST
are the ones the spec lists (R12). -/
theorem exec_effect (i : Instr) (s : State) : Effect s (exec i s) := by
  cases i with
  | ret => exact execRet_effect s
  | call nnn => exact execCall_effect nnn s
  | exit => exact ⟨.inl rfl, .inr (.inl ⟨rfl, rfl⟩), rfl, rfl, rfl⟩
  | drw x y n => exact execDrw_effect x y n s
  | storeRegs x => exact execStoreRegs_effect x s
  | loadRegs x => exact execLoadRegs_effect x s
  | seImm x kk => exact effect_skipIf s _
  | sneImm x kk => exact effect_skipIf s _
  | seReg x y => exact effect_skipIf s _
  | sneReg x y => exact effect_skipIf s _
  | _ => exact effect_plain rfl rfl rfl rfl rfl rfl

/-- One step's cases (R205): a terminal state, a fetch out of range, an illegal word, an instruction. -/
theorem step_cases (s : State) :
    (s.ms ≠ .running ∧ step s = .next s) ∨
    (s.ms = .running ∧ 0xFFE < s.pc.toNat ∧ step s = .next (s.enterFault .addressOutOfRange)) ∨
    (∃ w e, s.ms = .running ∧ s.pc.toNat ≤ 0xFFE ∧ s.fetch = some w ∧ decode w = .error e ∧
      step s = .next ((s.setLast w).enterFault .unknownInstruction)) ∨
    (∃ w i, s.ms = .running ∧ s.pc.toNat ≤ 0xFFE ∧ s.fetch = some w ∧ decode w = .ok i ∧
      step s = exec i (s.setLast w)) := by
  cases hms : s.ms with
  | faulted => exact .inl ⟨by decide, by simp [step, hms]⟩
  | halted => exact .inl ⟨by decide, by simp [step, hms]⟩
  | running =>
    by_cases hp : s.pc.toNat ≤ 0xFFE
    · have hf := s.fetch_eq
      rw [if_pos hp] at hf
      cases hd : decode (wordOfBytes (s.mem.get s.pc.toNat) (s.mem.get (s.pc.toNat + 1))) with
      | error e => exact .inr (.inr (.inl ⟨_, e, rfl, hp, hf, hd, by simp [step, hms, hf, hd, raiseFault]⟩))
      | ok i => exact .inr (.inr (.inr ⟨_, i, rfl, hp, hf, hd, by simp [step, hms, hf, hd]⟩))
    · have hf := s.fetch_eq
      rw [if_neg hp] at hf
      exact .inr (.inl ⟨rfl, by omega, by simp [step, hms, hf, raiseFault]⟩)

end Sys2Proof.Machine
end

