-- ==== Sys2Proof/Laws/PerInstr.lean ====
section
/-! SUPPORT. Statements made for every instruction, one lemma per constructor (LAWS.json).

`EncodedRow`: the instruction's operands fit their fields, and its word selects the instruction's own
row of the opcode map (R93, R104). -/

namespace Sys2Proof.Laws.EncodedRow

open Sys2Proof

/-- The operands fit their fields, and the encoded word selects the instruction's row (R104). -/
def Statement (i : Instr) : Prop := i.wf ∧ i.row.selects (encode i) = true

/-- A register number fits its field. -/
@[simp] theorem ofReg_wf (r : Reg) : (Operand.ofReg r).value < (Operand.ofReg r).kind.size := r.isLt

/-- An 8-bit immediate fits its field. -/
@[simp] theorem ofImm_wf (kk : Byte) : (Operand.ofImm kk).value < (Operand.ofImm kk).kind.size :=
  kk.isLt

/-- A 12-bit immediate fits its field. -/
@[simp] theorem ofAddr_wf (a : Addr) : (Operand.ofAddr a).value < (Operand.ofAddr a).kind.size :=
  a.isLt

/-- A NNN word selects the row of its family. -/
theorem selects_packNNN (op : Fin 16) (nnn : Addr) (v : Word) (h : v.toNat = 4096 * op.val) :
    (OpcodeRow.mk v 0xF000).selects (packNNN op nnn) = true := by
  have := nnn.isLt
  rw [OpcodeRow.selects_F000, packNNN_toNat]
  omega

/-- A XKK word selects the row of its family. -/
theorem selects_packXKK (op : Fin 16) (x : Reg) (kk : Byte) (v : Word)
    (h : v.toNat = 4096 * op.val) : (OpcodeRow.mk v 0xF000).selects (packXKK op x kk) = true := by
  have := kk.isLt
  rw [OpcodeRow.selects_F000, packXKK_toNat]
  omega

/-- A XKK word selects the row of its family and sub-opcode `kk`. -/
theorem selects_packXKK_sub (op : Fin 16) (x : Reg) (kk : Byte) (v : Word)
    (h : v.toNat = 4096 * op.val + kk.toNat) :
    (OpcodeRow.mk v 0xF0FF).selects (packXKK op x kk) = true := by
  have := kk.isLt
  rw [OpcodeRow.selects_F0FF, packXKK_toNat]
  omega

/-- A XYN word selects the row of its family. -/
theorem selects_packXYN (op : Fin 16) (x y : Reg) (n : Count) (v : Word)
    (h : v.toNat = 4096 * op.val) :
    (OpcodeRow.mk v 0xF000).selects (packXYN op x y n) = true := by
  rw [OpcodeRow.selects_F000, packXYN_toNat]
  omega

/-- A XYN word selects the row of its family and sub-opcode `n`. -/
theorem selects_packXYN_sub (op : Fin 16) (x y : Reg) (n : Count) (v : Word)
    (h : v.toNat = 4096 * op.val + n.val) :
    (OpcodeRow.mk v 0xF00F).selects (packXYN op x y n) = true := by
  rw [OpcodeRow.selects_F00F, packXYN_toNat]
  omega

theorem cls : Statement .cls :=
  ⟨by simp [Instr.wf, Instr.operands],
    (OpcodeRow.selects_FFFF _ _).2 rfl⟩

theorem ret : Statement .ret :=
  ⟨by simp [Instr.wf, Instr.operands],
    (OpcodeRow.selects_FFFF _ _).2 rfl⟩

theorem exit : Statement .exit :=
  ⟨by simp [Instr.wf, Instr.operands],
    (OpcodeRow.selects_FFFF _ _).2 rfl⟩

theorem jp (nnn : Addr) : Statement (.jp nnn) :=
  ⟨by simp [Instr.wf, Instr.operands],
    selects_packNNN _ _ _ rfl⟩

theorem call (nnn : Addr) : Statement (.call nnn) :=
  ⟨by simp [Instr.wf, Instr.operands],
    selects_packNNN _ _ _ rfl⟩

theorem seImm (x : Reg) (kk : Byte) : Statement (.seImm x kk) :=
  ⟨by simp [Instr.wf, Instr.operands],
    selects_packXKK _ _ _ _ rfl⟩

theorem sneImm (x : Reg) (kk : Byte) : Statement (.sneImm x kk) :=
  ⟨by simp [Instr.wf, Instr.operands],
    selects_packXKK _ _ _ _ rfl⟩

theorem seReg (x y : Reg) : Statement (.seReg x y) :=
  ⟨by simp [Instr.wf, Instr.operands],
    selects_packXYN_sub _ _ _ _ _ rfl⟩

theorem ldImm (x : Reg) (kk : Byte) : Statement (.ldImm x kk) :=
  ⟨by simp [Instr.wf, Instr.operands],
    selects_packXKK _ _ _ _ rfl⟩

theorem addImm (x : Reg) (kk : Byte) : Statement (.addImm x kk) :=
  ⟨by simp [Instr.wf, Instr.operands],
    selects_packXKK _ _ _ _ rfl⟩

theorem ldReg (x y : Reg) : Statement (.ldReg x y) :=
  ⟨by simp [Instr.wf, Instr.operands],
    selects_packXYN_sub _ _ _ _ _ rfl⟩

theorem orReg (x y : Reg) : Statement (.orReg x y) :=
  ⟨by simp [Instr.wf, Instr.operands],
    selects_packXYN_sub _ _ _ _ _ rfl⟩

theorem andReg (x y : Reg) : Statement (.andReg x y) :=
  ⟨by simp [Instr.wf, Instr.operands],
    selects_packXYN_sub _ _ _ _ _ rfl⟩

theorem xorReg (x y : Reg) : Statement (.xorReg x y) :=
  ⟨by simp [Instr.wf, Instr.operands],
    selects_packXYN_sub _ _ _ _ _ rfl⟩

theorem addReg (x y : Reg) : Statement (.addReg x y) :=
  ⟨by simp [Instr.wf, Instr.operands],
    selects_packXYN_sub _ _ _ _ _ rfl⟩

theorem subReg (x y : Reg) : Statement (.subReg x y) :=
  ⟨by simp [Instr.wf, Instr.operands],
    selects_packXYN_sub _ _ _ _ _ rfl⟩

theorem shr (x y : Reg) : Statement (.shr x y) :=
  ⟨by simp [Instr.wf, Instr.operands],
    selects_packXYN_sub _ _ _ _ _ rfl⟩

theorem subnReg (x y : Reg) : Statement (.subnReg x y) :=
  ⟨by simp [Instr.wf, Instr.operands],
    selects_packXYN_sub _ _ _ _ _ rfl⟩

theorem shl (x y : Reg) : Statement (.shl x y) :=
  ⟨by simp [Instr.wf, Instr.operands],
    selects_packXYN_sub _ _ _ _ _ rfl⟩

theorem sneReg (x y : Reg) : Statement (.sneReg x y) :=
  ⟨by simp [Instr.wf, Instr.operands],
    selects_packXYN_sub _ _ _ _ _ rfl⟩

theorem ldI (nnn : Addr) : Statement (.ldI nnn) :=
  ⟨by simp [Instr.wf, Instr.operands],
    selects_packNNN _ _ _ rfl⟩

theorem jpV0 (nnn : Addr) : Statement (.jpV0 nnn) :=
  ⟨by simp [Instr.wf, Instr.operands],
    selects_packNNN _ _ _ rfl⟩

theorem rnd (x : Reg) (kk : Byte) : Statement (.rnd x kk) :=
  ⟨by simp [Instr.wf, Instr.operands],
    selects_packXKK _ _ _ _ rfl⟩

theorem drw (x y : Reg) (n : Count) : Statement (.drw x y n) :=
  ⟨by
    have h := n.isLt
    simp only [Instr.wf, Operand.wf, Instr.operands, List.forall_mem_cons, List.not_mem_nil]
    exact ⟨x.isLt, y.isLt, h, by simp⟩,
    selects_packXYN _ _ _ _ _ rfl⟩

theorem addI (x : Reg) : Statement (.addI x) :=
  ⟨by simp [Instr.wf, Instr.operands],
    selects_packXKK_sub _ _ _ _ rfl⟩

theorem storeRegs (x : Reg) : Statement (.storeRegs x) :=
  ⟨by simp [Instr.wf, Instr.operands],
    selects_packXKK_sub _ _ _ _ rfl⟩

theorem loadRegs (x : Reg) : Statement (.loadRegs x) :=
  ⟨by simp [Instr.wf, Instr.operands],
    selects_packXKK_sub _ _ _ _ rfl⟩

end Sys2Proof.Laws.EncodedRow
end

