-- ==== Sys2Proof/Tests/Slice0.lean ====
section
/-! SUPPORT. Tests. Words and expected results come from the spec: the bit layouts of 30_encoding.md
R91, R92 and R104, and the vectors of 95_test_vectors.md and 43_alu.md R172, named in each docstring.
The last part gives, for each statement of Certificates/Slice0/Obligations.lean that has hypotheses, a
concrete state and operands that meet them. -/

namespace Sys2Proof.Tests

open Sys2Proof Sys2Proof.Machine

/-! ## Well-formedness: what each check refuses -/

theorem test_wf_refuses_register_16 : ¬ (Operand.mk .reg 16).wf ∧ (Operand.mk .reg 15).wf := by decide
theorem test_wf_refuses_count_16 : ¬ (Operand.mk .count 16).wf ∧ (Operand.mk .count 15).wf := by
  decide
theorem test_wf_refuses_imm8_256 : ¬ (Operand.mk .imm8 256).wf ∧ (Operand.mk .imm8 255).wf := by
  decide
theorem test_wf_refuses_addr12_4096 :
    ¬ (Operand.mk .addr12 4096).wf ∧ (Operand.mk .addr12 4095).wf := by decide
theorem test_wf_instruction : (Instr.drw 15 15 15).wf ∧ (Instr.jpV0 0xFFF).wf := by decide
/-- `kk` is not `y * 16 + n`. -/
theorem test_wf_refuses_kk_apart : ¬ (Fields.mk 1 2 3 4 0x35 0x235).wf := by decide
/-- `nnn` is not `x * 256 + kk`. -/
theorem test_wf_refuses_nnn_apart :
    ¬ (Fields.mk 1 2 3 4 0x34 0x334).wf ∧ (Fields.mk 1 2 3 4 0x34 0x234).wf := by decide
/-- The bound of the load port is exclusive (R243, example E7). -/
theorem test_wf_refuses_image_of_3584 (b : Byte) :
    ¬ ImageFits (List.replicate 3584 b) ∧ ImageFits (List.replicate 3583 b) := by
  simp only [ImageFits, List.length_replicate]; decide
/-- Memory out of canonical form: a byte equal to what the address reads as, a repeated address, an
address out of range. -/
theorem test_wf_refuses_memory :
    ¬ (Memory.mk defaultFont [(0x300, 0)]).wf ∧ ¬ (Memory.mk defaultFont [(3, 1), (3, 2)]).wf ∧
    ¬ (Memory.mk defaultFont [(4096, 1)]).wf ∧ (Memory.mk defaultFont [(3, 1), (0x300, 2)]).wf := by
  decide

/-! ## Decoding: a word of every constructor, bit by bit (R91, R92, R104) -/

theorem test_decode_family0 :
    decode 0b0000000011100000 = .ok .cls ∧ decode 0b0000000011101110 = .ok .ret ∧
    decode 0b0000000011111101 = .ok .exit := by decide
theorem test_decode_jumps :
    decode 0b0001001000110100 = .ok (.jp 0x234) ∧ decode 0b0010101010111100 = .ok (.call 0xABC) ∧
    decode 0b1011000100100011 = .ok (.jpV0 0x123) := by decide
theorem test_decode_skips :
    decode 0b0011001101000010 = .ok (.seImm 3 0x42) ∧
    decode 0b0100001101000010 = .ok (.sneImm 3 0x42) ∧
    decode 0b0101000100100000 = .ok (.seReg 1 2) ∧
    decode 0b1001000100100000 = .ok (.sneReg 1 2) := by decide
theorem test_decode_immediates :
    decode 0b0110001110101011 = .ok (.ldImm 3 0xAB) ∧
    decode 0b0111000011111110 = .ok (.addImm 0 0xFE) ∧
    decode 0b1010000100100011 = .ok (.ldI 0x123) ∧
    decode 0b1100000100001111 = .ok (.rnd 1 0x0F) := by decide
theorem test_decode_logic :
    decode 0b1000000100100000 = .ok (.ldReg 1 2) ∧ decode 0b1000000100100001 = .ok (.orReg 1 2) ∧
    decode 0b1000000100100010 = .ok (.andReg 1 2) ∧
    decode 0b1000000100100011 = .ok (.xorReg 1 2) := by decide
theorem test_decode_arithmetic :
    decode 0b1000000100100100 = .ok (.addReg 1 2) ∧ decode 0b1000000100100101 = .ok (.subReg 1 2) ∧
    decode 0b1000000100100110 = .ok (.shr 1 2) ∧ decode 0b1000000100100111 = .ok (.subnReg 1 2) ∧
    decode 0b1000000100101110 = .ok (.shl 1 2) := by decide
theorem test_decode_draw : decode 0b1101000000010101 = .ok (.drw 0 1 5) := by decide
theorem test_decode_familyF :
    decode 0b1111001100011110 = .ok (.addI 3) ∧ decode 0b1111001001010101 = .ok (.storeRegs 2) ∧
    decode 0b1111111101100101 = .ok (.loadRegs 15) := by decide

/-- The illegal words of 95_test_vectors.md section 2.1, families 0, 5 and 9. -/
theorem test_illegal_families_0_5_9 :
    decode 0x0000 = .error .family0 ∧ decode 0x00E1 = .error .family0 ∧
    decode 0x00FF = .error .family0 ∧ decode 0x01E0 = .error .family0 ∧
    decode 0x0FEE = .error .family0 ∧ decode 0x0ABC = .error .family0 ∧
    decode 0x5121 = .error .family5 ∧ decode 0x512F = .error .family5 ∧
    decode 0x9AB1 = .error .family9 := by decide
/-- The same section, families 8, E and F. -/
theorem test_illegal_families_8_E_F :
    decode 0x8AB8 = .error .family8 ∧ decode 0x8ABD = .error .family8 ∧
    decode 0x8ABF = .error .family8 ∧ decode 0xE09E = .error .familyE ∧
    decode 0xEFFF = .error .familyE ∧ decode 0xF007 = .error .familyF ∧
    decode 0xF033 = .error .familyF ∧ decode 0xF0FF = .error .familyF := by decide
/-- Numbered from the least significant bit, the word of F5 is 0xD015, laid out `D0 15`. -/
theorem test_decodeTableWord :
    decodeTableWord 16 0xD015 = some (.drw 0 1 5) ∧ decodeTableWord 16 0x0ABC = none := by decide

/-- What the host places is what `step` fetches (R63). -/
theorem test_withFetchWord : (State.reset.withFetchWord 16 0xD015).fetch = some 0xD015 ∧
    (State.reset.withFetchWord 16 0xD015).mem.read 0x200 = some 0xD0 := by decide

/-! ## One step -/

/-- The next state an outcome answers, if it does. -/
def answer {α : Type} : Host.Outcome α Fault Refusal → Option α
  | .next t => some t
  | .fault _ => none
  | .refused _ => none

theorem eq_next_of_answer {α : Type} {r : Host.Outcome α Fault Refusal} {t : α}
    (h : answer r = some t) : r = .next t := by
  cases r <;> simp_all [answer]

/-- The state after one STEP. -/
def after (s : State) : Option State := answer (step s)

/-- The reset state with a word at PC. -/
def ready (w : Word) : State := State.reset.placeWord w

/-- The reset state at another PC, with a word there. -/
def readyAt (pc w : Word) : State := (State.reset.setPc pc).placeWord w

/-- The reset state with `V[1]`, `V[2]` and VF, and a word at PC. -/
def alu (a b f : Byte) (w : Word) : State :=
  (((State.reset.setReg 1 a).setReg 2 b).setReg 15 f).placeWord w

/-- `V[1]`, `V[2]` and VF after one STEP. -/
def aluAfter (s : State) : Option (Byte × Byte × Byte) :=
  (after s).map fun t => (t.reg 1, t.reg 2, t.vf)

/-- A sprite byte at 0x300, coordinates in `V[0]` and `V[1]`, and a word at PC. -/
def draw (byte x0 y0 : Byte) (w : Word) : State :=
  (((State.reset.setReg 0 x0).setReg 1 y0).setI 0x300).setMem
    ((State.reset.placeWord w).mem.set 0x300 byte)

/-- The lit pixels among the given ones, and VF and REDRAW. -/
def drawAfter (s : State) (ps : List (Fin 64 × Fin 32)) : Option (List Bool × Byte × Bool) :=
  (after s).map fun t => (ps.map fun p => t.display.pixel p.1 p.2, t.vf, t.redraw)

/-- F3: a legal fetch at 0xFFE; then the next STEP faults with PC and LAST kept. -/
theorem test_F3 : ((after (readyAt 0xFFE 0x6007)).bind after).map
    (fun t => (t.reg 0, t.pc, t.last, t.ms, t.cause)) =
    some (7, 0x1000, 0x6007, .faulted, .addressOutOfRange) := by decide
/-- E8: 0x0ABC faults, PC as before the fetch, LAST the word. -/
theorem test_E8 : (after (ready 0x0ABC)).map (fun t => (t.pc, t.last, t.ms, t.cause)) =
    some (0x200, 0x0ABC, .faulted, .unknownInstruction) := by decide
/-- S1, S2: REDRAW is raised on a clear display too, VF stays. -/
theorem test_S1 : (after ((State.reset.setReg 15 7).placeWord 0x00E0)).map
    (fun t => (t.display, t.redraw, t.vf, t.pc)) = some (Display.clear, true, 7, 0x202) := by decide
/-- S3: return with an empty stack. -/
theorem test_S3 : (after (ready 0x00EE)).map (fun t => (t.ms, t.cause, t.pc, t.last)) =
    some (.faulted, .stackUnderflow, 0x200, 0x00EE) := by decide
/-- S5: return from a full stack. -/
theorem test_S5 : (after ({ ready 0x00EE with
    sp := 16, stk := (Vector.replicate 16 0).set 15 0x0ABC })).map (fun t => (t.sp, t.pc, t.stk[15])) =
    some (15, 0x0ABE, 0x0ABC) := by decide
/-- S6, S7: exit keeps PC, and a further STEP changes nothing. -/
theorem test_S6 : (after (readyAt 0x20C 0x00FD)).map (fun t => (t.ms, t.cause, t.pc, t.last)) =
    some (.halted, .none, 0x20C, 0x00FD) ∧
    (after (readyAt 0x20C 0x00FD)).bind after = after (readyAt 0x20C 0x00FD) := by decide
/-- J1. -/
theorem test_J1 : (after (readyAt 0x20A 0x1204)).map (·.pc) = some 0x204 := by decide
/-- J5: the last free stack cell. -/
theorem test_J5 : (after ({ readyAt 0x300 0x2200 with sp := 15 })).map
    (fun t => (t.sp, t.stk[15], t.pc)) = some (16, 0x300, 0x200) := by decide
/-- J6: the seventeenth call. -/
theorem test_J6 : (after ({ readyAt 0x300 0x2200 with sp := 16 })).map
    (fun t => (t.ms, t.cause, t.sp, t.pc)) = some (.faulted, .stackOverflow, 16, 0x300) := by decide
/-- J7, J8. -/
theorem test_J7 : (after ((State.reset.setReg 3 0x42).placeWord 0x3342)).map (·.pc) = some 0x204 ∧
    (after ((State.reset.setReg 3 0x43).placeWord 0x3342)).map (·.pc) = some 0x202 := by decide
/-- J9, J10. -/
theorem test_J9 : (after ((State.reset.setReg 3 0x42).placeWord 0x4342)).map (·.pc) = some 0x202 ∧
    (after ((State.reset.setReg 3 0x43).placeWord 0x4342)).map (·.pc) = some 0x204 := by decide
/-- J11, J12 on 0x5120. -/
theorem test_J11 : (after (alu 0x10 0x10 0 0x5120)).map (·.pc) = some 0x204 ∧
    (after (alu 0x10 0x11 0 0x5120)).map (·.pc) = some 0x202 := by decide
/-- J11, J12 on 0x9120. -/
theorem test_J12 : (after (alu 0x10 0x10 0 0x9120)).map (·.pc) = some 0x202 ∧
    (after (alu 0x10 0x11 0 0x9120)).map (·.pc) = some 0x204 := by decide
/-- J16: the full sum. -/
theorem test_J16 : (after ((State.reset.setReg 0 0xFF).placeWord 0xBFFF)).map (·.pc) =
    some 0x10FE := by decide
/-- J18: a skip past the last word. -/
theorem test_J18 : (after (readyAt 0xFFE 0x3000)).map (·.pc) = some 0x1002 := by decide
/-- I1. -/
theorem test_I1 : (after (ready 0x63AB)).map (fun t => (t.reg 3, t.pc)) = some (0xAB, 0x202) := by
  decide
/-- I5: no carry flag. -/
theorem test_I5 : (after ((State.reset.setReg 0 0x80).setReg 15 1 |>.placeWord 0x7080)).map
    (fun t => (t.reg 0, t.vf)) = some (0, 1) := by decide
/-- I6: bits 15 to 12 become 0. -/
theorem test_I6 : (after ((State.reset.setI 0xFFFF).placeWord 0xA123)).map (·.i) = some 0x123 := by
  decide
/-- I8: the byte that STEP(r) brings is masked. -/
theorem test_I8 : (answer (stepWith 0xA7 ((State.reset.setReg 1 0xEE).placeWord 0xC10F))).map
    (fun t => (t.reg 1, t.pc)) = some (0x07, 0x202) := by decide
/-- A1. -/
theorem test_A1 : aluAfter (alu 0x12 0x5A 9 0x8120) = some (0x5A, 0x5A, 9) := by decide
/-- A2, A3, A4: VF stays. -/
theorem test_A2 : aluAfter (alu 0xF0 0x0C 1 0x8121) = some (0xFC, 0x0C, 1) := by decide
theorem test_A3 : aluAfter (alu 0xF0 0x3C 1 0x8122) = some (0x30, 0x3C, 1) := by decide
theorem test_A4 : aluAfter (alu 0xF0 0x3C 1 0x8123) = some (0xCC, 0x3C, 1) := by decide
/-- R172 (0xFF + 0x01) and A12 (`y` is VF). -/
theorem test_R172_add : aluAfter (alu 0xFF 0x01 0 0x8124) = some (0x00, 0x01, 1) ∧
    aluAfter (alu 0xFF 0 0x01 0x81F4) = some (0x00, 0, 1) := by decide
/-- A18: `x` and `y` are VF. -/
theorem test_A18 : aluAfter (alu 0 0 0x90 0x8FF4) = some (0, 0, 0x20) := by decide
/-- R172 (0x05 - 0x0A) and A13 (`y` is VF). -/
theorem test_R172_sub : aluAfter (alu 0x05 0x0A 9 0x8125) = some (0xFB, 0x0A, 0) ∧
    aluAfter (alu 0x10 0 0x20 0x81F5) = some (0xF0, 0, 0) := by decide
/-- A7: equal operands; A17: `x` is VF. -/
theorem test_A7 : aluAfter (alu 0x33 0 0 0x8115) = some (0, 0, 1) ∧
    aluAfter (alu 0x0A 0 0x05 0x8F15) = some (0x0A, 0, 0xFB) := by decide
/-- A8, and A15 (`x` is VF). -/
theorem test_A8 : aluAfter (alu 0x05 0x99 0 0x8126) = some (0x02, 0x99, 1) ∧
    aluAfter (alu 0 0 0x03 0x8F06) = some (0, 0, 0x01) := by decide
/-- A10, A11. -/
theorem test_A10 : aluAfter (alu 0x05 0x0A 0 0x8127) = some (0x05, 0x0A, 1) ∧
    aluAfter (alu 0x0A 0x05 1 0x8127) = some (0xFB, 0x05, 0) := by decide
/-- A9, and A16 (`x` is VF). -/
theorem test_A9 : aluAfter (alu 0x81 0x99 0 0x812E) = some (0x02, 0x99, 1) ∧
    aluAfter (alu 0 0 0x81 0x8F0E) = some (0, 0, 0x02) := by decide
/-- W5: wrapping in both directions, no collision. -/
theorem test_W5 : drawAfter (draw 0xC0 0xFF 0xFF 0xD011) [(63, 31), (0, 31), (1, 31), (62, 31)] =
    some ([true, true, false, false], 0, true) := by decide
/-- W10: the second byte is out of range, nothing is drawn. -/
theorem test_W10 : (after (((State.reset.setReg 15 1).setI 0xFFF).placeWord 0xD012)).map
    (fun t => (t.ms, t.cause, t.vf, t.redraw, t.pc)) =
    some (.faulted, .addressOutOfRange, 1, false, 0x200) := by decide
/-- M3: I wraps modulo 65536, VF stays. -/
theorem test_M3 : (after ((State.reset.setReg 0 2).setI 0xFFFF |>.placeWord 0xF01E)).map
    (fun t => (t.i, t.vf)) = some (1, 0) := by decide
/-- M4. -/
theorem test_M4 : (after (((((ready 0xF255).setReg 0 0x11).setReg 1 0x22).setReg 2 0x33).setI 0x300)).map
    (fun t => (t.mem.read 0x300, t.mem.read 0x301, t.mem.read 0x302, t.mem.read 0x303, t.i)) =
    some (some 0x11, some 0x22, some 0x33, some 0, 0x300) := by decide
/-- M10: a font byte is overwritten. -/
theorem test_M10 : (after ((ready 0xF055).setReg 0 0xAA)).map (fun t => t.mem.read 0) =
    some (some 0xAA) := by decide
/-- W12's glyph as data: 0xF465 at I = 0x019 loads `F0 80 F0 10 F0`. -/
theorem test_load_glyph : (after ((ready 0xF465).setI 0x019)).map
    (fun t => (t.reg 0, t.reg 1, t.reg 2, t.reg 3, t.reg 4, t.reg 5)) =
    some (0xF0, 0x80, 0xF0, 0x10, 0xF0, 0) := by decide
/-- M8: the last byte of memory is loaded, a byte beyond it faults. -/
theorem test_M8 : (after ((ready 0xF165).setI 0xFFF)).map (fun t => (t.ms, t.cause, t.reg 0)) =
    some (.faulted, .addressOutOfRange, 0) ∧
    (after ((ready 0xF065).setI 0xFFF)).map (fun t => (t.ms, t.pc)) = some (.running, 0x202) := by
  decide
/-- T3 and T4. -/
theorem test_T3 : (State.tick { State.reset with st := 0xFF }).st = 0xFE ∧
    State.reset.tick = State.reset := by decide
/-- L4: bytes 60 07 12 at 0x200, one STEP, then the fetch of 0x1200. -/
theorem test_L4 : ((State.reset.load [0x60, 0x07, 0x12]).bind after).map
    (fun t => (t.reg 0, t.fetch)) = some (7, some 0x1200) := by decide
/-- L3: with nothing loaded, the first STEP faults on the word 0x0000. -/
theorem test_L3 : (after State.reset).map (fun t => (t.ms, t.cause, t.pc, t.last)) =
    some (.faulted, .unknownInstruction, 0x200, 0) := by decide
/-- X1. -/
theorem test_X1 : State.onReset { State.reset with
    ms := .faulted, cause := .stackOverflow, sp := 16, pc := 0x300, i := 7, dt := 3 } =
    State.reset := by decide

/-! ## Witnesses: the hypotheses of the statements are met, at the bounds of their clauses -/

theorem witness_DecodeInvertsEncode :
    decode 0xDFFF = .ok (.drw 15 15 15) ∧ encode (.drw 15 15 15) = 0xDFFF ∧
    decode 0x81FE = .ok (.shl 1 15) ∧ encode (.shl 1 15) = 0x81FE := by decide
theorem witness_LegalExactlyWhenOneRowSelects :
    decode 0x812E = .ok (.shl 1 2) ∧ (Instr.shl 1 2).row ∈ opcodeMap ∧
    (Instr.shl 1 2).row.selects 0x812E = true ∧ (Instr.addReg 1 2).row.selects 0x812E = false := by
  decide
/-- One word for each clause: family 8 with `n` 7, 0xE, 8 and 0xF, family F, E and a plain one. -/
theorem witness_FamilyLegality :
    (Fields.ofWord 0x8AB7).op = 8 ∧ (Fields.ofWord 0x8AB7).n = 7 ∧ (Fields.ofWord 0x8ABE).n = 0xE ∧
    (Fields.ofWord 0x8AB8).op = 8 ∧ (Fields.ofWord 0x8AB8).n = 8 ∧ (Fields.ofWord 0x8ABF).n = 0xF ∧
    (Fields.ofWord 0xF055).op = 0xF ∧ (Fields.ofWord 0xF055).kk = 0x55 ∧
    (Fields.ofWord 0xF056).op = 0xF ∧ (Fields.ofWord 0xF056).kk = 0x56 ∧
    (Fields.ofWord 0xE09E).op = 0xE ∧ (Fields.ofWord 0xDFFF).op = 0xD := by decide
/-- The states that "faults as unknown" speaks of: RUNNING, the word fetched. -/
theorem witness_FaultsAsUnknown :
    (ready 0xE09E).ms = .running ∧ (ready 0xE09E).fetch = some 0xE09E ∧
    (readyAt 0xFFE 0x8AB8).ms = .running ∧ (readyAt 0xFFE 0x8AB8).fetch = some 0x8AB8 := by decide
theorem witness_StrictFamilyLegality :
    (Fields.ofWord 0x00FD).op = 0 ∧ (Fields.ofWord 0x01E0).op = 0 ∧
    (Fields.ofWord 0x5120).op = 5 ∧ (Fields.ofWord 0x5120).n = 0 ∧
    (Fields.ofWord 0x9AB1).op = 9 ∧ (Fields.ofWord 0x9AB1).n = 1 := by decide
/-- At the last address that can be fetched from. -/
theorem witness_StepRunsDecodedInstruction :
    (readyAt 0xFFE 0x6007).ms = .running ∧ (readyAt 0xFFE 0x6007).mem.read 0xFFE = some 0x60 ∧
    (readyAt 0xFFE 0x6007).mem.read 0xFFF = some 0x07 ∧
    decode (BitVec.ofNat 16 (0x60 * 256 + 0x07)) = .ok (.ldImm 0 7) := by decide
/-- PC = 0xFFF is out of range, PC = 0xFFE is not. -/
theorem witness_FetchRangeAndByteOrder :
    (State.reset.setPc 0xFFF).ms = .running ∧ 0xFFE < (State.reset.setPc 0xFFF).pc.toNat ∧
    (readyAt 0xFFE 0x6007).pc.toNat ≤ 0xFFE ∧ (readyAt 0xFFE 0x6007).fetch = some 0x6007 := by decide
/-- Both terminal states, a STEP that halts, one that faults and one that does neither. -/
theorem witness_EndOfRun :
    State.reset.halt.terminal ∧ (State.reset.enterFault .stackOverflow).terminal ∧
    (after (ready 0x00FD)).map (·.ms) = some .halted ∧ (ready 0x00FD).fetch = some 0x00FD ∧
    (after (ready 0x00EE)).map (·.ms) = some .faulted ∧
    (after (ready 0x1200)).map (·.ms) = some .running := by decide
theorem witness_FaultsArePrecise :
    (ready 0x00EE).ms = .running ∧
    step (ready 0x00EE) = .next { ready 0x00EE with
      last := 0x00EE, ms := .faulted, cause := .stackUnderflow } :=
  ⟨by decide, eq_next_of_answer (by decide)⟩
/-- CALL, RET and the transfers on either side of their bounds. -/
theorem witness_FaultsExactlyAsListed :
    (after ({ ready 0x2200 with sp := 15 })).map (·.cause) = some .none ∧
    (after ({ ready 0x2200 with sp := 16 })).map (·.cause) = some .stackOverflow ∧
    (after ({ ready 0x00EE with sp := 1 })).map (·.cause) = some .none ∧
    (after (ready 0x00EE)).map (·.cause) = some .stackUnderflow ∧
    (after ((ready 0xD010).setI 0xFFFF)).map (·.cause) = some .none ∧
    (after ((ready 0xD011).setI 0xFFF)).map (·.cause) = some .none ∧
    (after ((ready 0xD011).setI 0x1000)).map (·.cause) = some .addressOutOfRange := by decide
theorem witness_FaultsExactlyAsListed_transfers :
    (after ((ready 0xFF55).setI 0xFF0)).map (·.cause) = some .none ∧
    (after ((ready 0xFF55).setI 0xFF1)).map (·.cause) = some .addressOutOfRange ∧
    (after ((ready 0xFF65).setI 0xFF0)).map (·.cause) = some .none ∧
    (after ((ready 0xFF65).setI 0xFF1)).map (·.cause) = some .addressOutOfRange ∧
    (after (State.reset.setPc 0xFFF)).map (·.cause) = some .addressOutOfRange ∧
    (after (ready 0xE000)).map (·.cause) = some .unknownInstruction := by decide
/-- A taken skip that wraps at the top of the PC, and a return to a stack cell below SP. -/
theorem witness_DefaultPcAdvance :
    State.reset.ms = .running ∧
    exec (.seImm 0 0) (State.reset.setPc 0xFFFE) = .next (State.reset.setPc 2) ∧
    exec .ret { State.reset with sp := 1 } = .next (State.reset.setPc 2) ∧
    exec (.jpV0 0xFFF) State.reset = .next (State.reset.setPc 0xFFF) :=
  ⟨rfl, eq_next_of_answer (by decide), eq_next_of_answer (by decide), eq_next_of_answer (by decide)⟩
/-- Instructions that do change memory, I, the redraw flag, the stack and VF. -/
theorem witness_OnlyListedInstructionsChange :
    (answer (exec (.ldI 5) State.reset)).map (·.i) = some 5 ∧
    (answer (exec (.ldImm 15 1) State.reset)).map (·.vf) = some 1 ∧
    (answer (exec (.storeRegs 0) State.reset)).map (·.mem.read 0) = some (some 0) ∧
    State.reset.mem.read 0 ≠ some 0 ∧
    (answer (exec (.call 2) State.reset)).map (·.sp) = some 1 ∧
    (answer (exec .cls State.reset)).map (·.redraw) = some true := by decide
/-- SP = 0, 1 and 16. -/
theorem witness_ReturnPopsAndAddsTwo :
    State.reset.sp.val = 0 ∧ ({ State.reset with sp := 1 } : State).sp.val ≠ 0 ∧
    (answer (exec .ret { State.reset with sp := 16 })).map (fun t => (t.sp, t.ms)) =
      some (15, .running) := by decide
/-- SP = 0, 15 and 16. -/
theorem witness_CallPushesOwnAddress :
    State.reset.sp.val < 16 ∧ ({ State.reset with sp := 15 } : State).sp.val < 16 ∧
    ({ State.reset with sp := 16 } : State).sp.val = 16 := by decide
theorem witness_CallThenReturnResumes :
    ({ State.reset with sp := 15 } : State).sp.val < 16 ∧
    ((answer (exec (.call 0x300) { State.reset with sp := 15 })).bind
      fun t => answer (exec .ret t)).map (fun u => (u.sp, u.pc)) = some (15, 0x202) := by decide
/-- A supplied byte, and none. -/
theorem witness_RandomByteIsMasked :
    (State.reset.setEntropy (some 0xA7)).entropy = some 0xA7 ∧
    (State.reset.entropy = none ∧ State.reset.randomByte = Config.randomByte State.reset.draws) :=
  ⟨rfl, rfl, rfl⟩
/-- A STEP of another instruction, one that cannot fetch, and a STEP of RND. -/
theorem witness_RandomInputOnlyForRnd :
    (ready 0x6005).fetch = some 0x6005 ∧ decode 0x6005 = .ok (.ldImm 0 5) ∧
    (State.reset.setPc 0xFFF).fetch = none ∧
    (ready 0xC10F).ms = .running ∧ (ready 0xC10F).fetch = some 0xC10F ∧
    decode 0xC10F = .ok (.rnd 1 0x0F) := by decide
/-- The last register below VF; equal operands, and `x = y`. -/
theorem witness_FlagArithmeticConventions :
    (14 : Reg) ≠ 15 ∧ ((State.reset.setReg 14 7).setReg 2 7).reg 14 =
      ((State.reset.setReg 14 7).setReg 2 7).reg 2 ∧ State.reset.reg 14 = State.reset.reg 14 := by
  decide
/-- `n = 0`, which holds for any I, and sprites that end at the last byte of memory. -/
theorem witness_DrawTogglesSpritePixels :
    (0 : Count).val = 0 ∧ (State.reset.setI 0xFFF).i.toNat + (1 : Count).val - 1 ≤ 0xFFF ∧
    (State.reset.setI 0xFF1).i.toNat + (15 : Count).val - 1 ≤ 0xFFF := by decide
theorem witness_DrawHits :
    (draw 0x80 63 31 0xD011).DrawHits 0 1 1 63 31 ∧ ¬ (draw 0x80 63 31 0xD011).DrawHits 0 1 0 63 31 ∧
    (draw 0x80 63 31 0xD011).display.pixel 63 31 = false :=
  ⟨⟨0, by decide, 0, by decide, 0x80, by decide⟩, fun ⟨_, h, _⟩ => Nat.not_lt_zero _ h, by decide⟩
/-- W1 then W2: the two draws of one sprite, the coordinates the same. -/
theorem witness_DrawTwiceRestoresDisplay :
    (draw 0x80 63 31 0xD011).i.toNat + (1 : Count).val - 1 ≤ 0xFFF ∧
    ((answer (exec (.drw 0 1 1) (draw 0x80 63 31 0xD011))).bind fun t =>
      (answer (exec (.drw 0 1 1) t)).map fun u =>
        (t.reg 0, t.reg 1, t.vf, t.display.pixel 63 31, u.display, u.vf)) =
      some (63, 31, 0, true, Display.clear, 1) := by decide
/-- Ranges that end at the last byte of memory. -/
theorem witness_StoreWritesRegisterRange :
    (State.reset.setI 0xFFF).i.toNat + (0 : Reg).val ≤ 0xFFF ∧
    (State.reset.setI 0xFF0).i.toNat + (15 : Reg).val ≤ 0xFFF := by decide
theorem witness_LoadReadsRegisterRange :
    (State.reset.setI 0xFF0).i.toNat + (15 : Reg).val ≤ 0xFFF ∧
    (State.reset.setI 0xFF1).i.toNat + (14 : Reg).val ≤ 0xFFF ∧ (14 : Reg) < 15 := by decide
/-- Ranges one byte too long. -/
theorem witness_TransfersOutOfRangeFault :
    1 ≤ (1 : Count).val ∧ 0xFFF < (State.reset.setI 0x1000).i.toNat + (1 : Count).val - 1 ∧
    1 ≤ (2 : Count).val ∧ 0xFFF < (State.reset.setI 0xFFF).i.toNat + (2 : Count).val - 1 ∧
    0xFFF < (State.reset.setI 0xFF1).i.toNat + (15 : Reg).val ∧
    0xFFF < (State.reset.setI 0x1000).i.toNat + (0 : Reg).val := by decide
theorem witness_StoreLoadRoundTrip :
    (State.reset.setI 0xFF0).i.toNat + (15 : Reg).val ≤ 0xFFF ∧
    (State.reset.setI 0x300).i.toNat + (2 : Reg).val ≤ 0xFFF := by decide
/-- The lowest and the highest place where a store reaches the word after itself. -/
theorem witness_StoredCodeIsFetched :
    1 ≤ (1 : Reg).val ∧ (State.reset.setI 0x202).i.toNat + (1 : Reg).val ≤ 0xFFF ∧
    (State.reset.setI 0x202).i.toNat = (State.reset.setI 0x202).pc.toNat + 2 ∧
    ((State.reset.setPc 0xFFC).setI 0xFFE).i.toNat + (1 : Reg).val ≤ 0xFFF ∧
    ((State.reset.setPc 0xFFC).setI 0xFFE).i.toNat =
      ((State.reset.setPc 0xFFC).setI 0xFFE).pc.toNat + 2 := by decide
/-- A STEP that stores, and one that faults, both from states of the invariant. -/
theorem witness_StepKeepsInvariant :
    ((ready 0xF055).setReg 0 0xAA).Inv ∧ (after ((ready 0xF055).setReg 0 0xAA)).isSome = true ∧
    (ready 0x00EE).Inv ∧ (after (ready 0x00EE)).isSome = true := by decide
/-- Reset, then a LOAD of EXIT, then a STEP: a reachable terminal block. -/
theorem witness_ReachableStatesMeetInvariant :
    ∃ b : Block, b.Reachable defaultFont ∧ b.state.terminal := by
  have h1 : Block.handle (Block.afterReset defaultFont) (.load [0x00, 0xFD]) = .next
      (⟨.loaded, State.reset.placeWord 0x00FD⟩, .loadOk) := eq_next_of_answer (by decide)
  have h2 : Block.handle ⟨.loaded, State.reset.placeWord 0x00FD⟩ (.step 0) = .next
      (⟨.started, ((State.reset.placeWord 0x00FD).setLast 0x00FD).halt⟩, .status .halted) :=
    eq_next_of_answer (by decide)
  exact ⟨_, .event _ _ _ _ (.event _ _ _ _ .start h1) h2, by decide⟩
/-- The first and last font byte, and addresses on either side of the bounds. -/
theorem witness_ResetValues :
    State.reset.mem.read 0 = some 0xF0 ∧ State.reset.mem.read 79 = some 0x80 ∧
    State.reset.mem.read 80 = some 0 ∧ State.reset.mem.read 0xFFF = some 0 ∧
    State.reset.mem.read 0x1000 = none := by decide
/-- Events in a terminal state other than RESET. -/
theorem witness_ResetIsTheOnlyRecovery :
    State.reset.halt.terminal ∧
    Block.handle ⟨.started, State.reset.halt⟩ .tick =
      .next (⟨.started, State.reset.halt⟩, .done) ∧
    Block.handle ⟨.started, State.reset.halt⟩ (.step 7) =
      .next (⟨.started, State.reset.halt⟩, .status .halted) ∧ Event.tick ≠ .reset :=
  ⟨by decide, eq_next_of_answer (by decide), eq_next_of_answer (by decide), by decide⟩
/-- The longest image that is loaded and the shortest that is not. -/
theorem witness_LoadCopiesImage (b : Byte) :
    (Block.afterReset defaultFont).phase = .fresh ∧ (List.replicate 3583 b).length < 3584 ∧
    3584 ≤ (List.replicate 3584 b).length := by
  simp only [List.length_replicate]; decide
theorem witness_LoadOutOfOrderIsRefused :
    Phase.loaded ≠ .fresh ∧ Phase.started ≠ .fresh ∧
    Block.handle ⟨.loaded, State.reset⟩ (.load []) = .refused .loadOutOfOrder :=
  ⟨by decide, by decide, rfl⟩
/-- A LOAD that succeeds and the STEP after it, both from blocks of the invariant. -/
theorem witness_EventsKeepInvariant :
    Block.RestInv defaultFont (Block.afterReset defaultFont) ∧
    Block.handle (Block.afterReset defaultFont) (.load [0x00, 0xFD]) = .next
      (⟨.loaded, State.reset.placeWord 0x00FD⟩, .loadOk) ∧
    Block.RestInv defaultFont ⟨.loaded, State.reset.placeWord 0x00FD⟩ ∧
    Block.handle ⟨.loaded, State.reset.placeWord 0x00FD⟩ (.step 0) = .next
      (⟨.started, ((State.reset.placeWord 0x00FD).setLast 0x00FD).halt⟩, .status .halted) :=
  ⟨by unfold Block.RestInv; decide, eq_next_of_answer (by decide),
    by unfold Block.RestInv; decide, eq_next_of_answer (by decide)⟩
/-- T7: `60 01` at 0x200 with DT = 9. -/
theorem witness_TickCommutesWithStep :
    (answer (stepWith 0 { ready 0x6001 with dt := 9 })).map
      (fun t => (t.reg 0, t.pc, t.tick.dt)) = some (1, 0x202, 8) := by decide

end Sys2Proof.Tests
end

/-! PROOFS. The default advance (R13) and the frame rule over all instructions (R12). -/

namespace Sys2Proof.Machine

open Sys2Proof

/-! ## What the instructions that can fault answer -/

/-- RET underflows, or pops and resumes after the call (R122). -/
theorem exec_ret_cases {s t : State} (h : exec .ret s = .next t) :
    (s.sp.val = 0 ∧ t = s.enterFault .stackUnderflow) ∨
    (s.sp.val ≠ 0 ∧
      t = State.setPc { s with sp := ⟨s.sp.val - 1, by omega⟩ } (s.stk[s.sp.val - 1] + 2)) := by
  simp only [exec, execRet] at h
  by_cases hsp : s.sp.val = 0
  · rw [(State.pop_eq_none s).2 hsp] at h
    cases h
    exact .inl ⟨hsp, rfl⟩
  · rw [State.pop_eq_some s hsp] at h
    cases h
    exact .inr ⟨hsp, rfl⟩

/-- CALL overflows, or pushes its own address and jumps (R132). -/
theorem exec_call_cases {nnn : Addr} {s t : State} (h : exec (.call nnn) s = .next t) :
    (s.sp.val = 16 ∧ t = s.enterFault .stackOverflow) ∨
    ∃ hsp : s.sp.val < 16,
      t = State.setPc { s with stk := s.stk.set s.sp.val s.pc, sp := ⟨s.sp.val + 1, by omega⟩ }
        nnn.zext16 := by
  simp only [exec, execCall] at h
  by_cases hsp : s.sp.val < 16
  · rw [State.push_eq_some s s.pc hsp] at h
    cases h
    exact .inr ⟨hsp, rfl⟩
  · have hfull : s.sp.val = 16 := by omega
    rw [(State.push_eq_none s s.pc).2 hfull] at h
    cases h
    exact .inl ⟨hfull, rfl⟩

/-- DRW finds its sprite out of range, or draws it (R181). -/
theorem exec_drw_cases {x y : Reg} {n : Count} {s t : State} (h : exec (.drw x y n) s = .next t) :
    (s.mem.readRange (s.dataAddr 0) n.val = none ∧ t = s.enterFault .addressOutOfRange) ∨
    ∃ sprite, s.mem.readRange (s.dataAddr 0) n.val = some sprite ∧
      t = ((s.setReg Reg.vf
          (flagByte (s.display.draw (s.reg x) (s.reg y) sprite).collision)).showDisplay
        (s.display.draw (s.reg x) (s.reg y) sprite).display).advance := by
  simp only [exec, execDrw] at h
  cases hr : s.mem.readRange (s.dataAddr 0) n.val with
  | none => rw [hr] at h; cases h; exact .inl ⟨rfl, rfl⟩
  | some sprite => rw [hr] at h; cases h; exact .inr ⟨sprite, rfl, rfl⟩

/-- LD [I], Vx finds a byte out of range, or stores them all (R192). -/
theorem exec_storeRegs_cases {x : Reg} {s t : State} (h : exec (.storeRegs x) s = .next t) :
    (s.mem.writeRange (s.dataAddr 0) (s.regsUpTo x) = none ∧
      t = s.enterFault .addressOutOfRange) ∨
    ∃ m, s.mem.writeRange (s.dataAddr 0) (s.regsUpTo x) = some m ∧ t = (s.setMem m).advance := by
  simp only [exec, execStoreRegs] at h
  cases hw : s.mem.writeRange (s.dataAddr 0) (s.regsUpTo x) with
  | none => rw [hw] at h; cases h; exact .inl ⟨rfl, rfl⟩
  | some m => rw [hw] at h; cases h; exact .inr ⟨m, rfl, rfl⟩

/-- LD Vx, [I] finds a byte out of range, or loads them all (R193). -/
theorem exec_loadRegs_cases {x : Reg} {s t : State} (h : exec (.loadRegs x) s = .next t) :
    (s.mem.readRange (s.dataAddr 0) (x.val + 1) = none ∧ t = s.enterFault .addressOutOfRange) ∨
    ∃ bs, s.mem.readRange (s.dataAddr 0) (x.val + 1) = some bs ∧
      t = (s.setRegs (loadRegsFrom s.v 0 bs)).advance := by
  simp only [exec, execLoadRegs] at h
  cases hr : s.mem.readRange (s.dataAddr 0) (x.val + 1) with
  | none => rw [hr] at h; cases h; exact .inl ⟨rfl, rfl⟩
  | some bs => rw [hr] at h; cases h; exact .inr ⟨bs, rfl, rfl⟩

/-- A range read gives one byte per address (R63). -/
theorem Memory.length_of_readRange {m : Memory} {a n : Nat} {bs : List Byte}
    (h : m.readRange a n = some bs) : bs.length = n := by
  rw [Memory.readRange_eq] at h
  split at h
  · cases h; simp
  · cases h

/-! ## The default advance -/

theorem State.advance_pc_toNat (s : State) : s.advance.pc.toNat = (s.pc.toNat + 2) % 65536 :=
  BitVec.toNat_add s.pc 2

theorem State.skipIf_pc_toNat (s : State) (c : Bool) :
    (s.skipIf c).pc.toNat = (s.pc.toNat + 4) % 65536 ∨
    (s.skipIf c).pc.toNat = (s.pc.toNat + 2) % 65536 := by
  cases c with
  | true => exact .inl (BitVec.toNat_add s.pc 4)
  | false => exact .inr s.advance_pc_toNat

/-- A state right after fault entry is not RUNNING (R202). -/
theorem State.enterFault_not_running (s : State) (c : Cause) : (s.enterFault c).ms ≠ .running := by
  simp

/-- Settles O11: by the instruction; the fault branches and EXIT are shut out by MS. -/
theorem defaultPcAdvance : Obligations.DefaultPcAdvance := by
  intro i s t _ h hrun
  cases i with
  | jp nnn => cases h; exact Addr.toNat_zext16 nnn
  | jpV0 nnn =>
    cases h
    show (nnn.zext16 + (s.reg 0).zext16).toNat % 4096 = (nnn.toNat + (s.reg 0).toNat) % 4096
    rw [BitVec.toNat_add, Addr.toNat_zext16, Byte.toNat_zext16]
    omega
  | call nnn =>
    obtain ⟨-, rfl⟩ | ⟨_, rfl⟩ := exec_call_cases h
    · exact absurd hrun (s.enterFault_not_running _)
    · exact Addr.toNat_zext16 nnn
  | ret =>
    obtain ⟨-, rfl⟩ | ⟨-, rfl⟩ := exec_ret_cases h
    · exact absurd hrun (s.enterFault_not_running _)
    · have hlt : s.sp.val - 1 < 16 := by omega
      exact ⟨hlt, BitVec.toNat_add s.stk[s.sp.val - 1] 2⟩
  | exit => cases h; cases hrun
  | seImm x kk => cases h; exact s.skipIf_pc_toNat _
  | sneImm x kk => cases h; exact s.skipIf_pc_toNat _
  | seReg x y => cases h; exact s.skipIf_pc_toNat _
  | sneReg x y => cases h; exact s.skipIf_pc_toNat _
  | drw x y n =>
    obtain ⟨-, rfl⟩ | ⟨sprite, -, rfl⟩ := exec_drw_cases h
    · exact absurd hrun (s.enterFault_not_running _)
    · exact State.advance_pc_toNat _
  | storeRegs x =>
    obtain ⟨-, rfl⟩ | ⟨m, -, rfl⟩ := exec_storeRegs_cases h
    · exact absurd hrun (s.enterFault_not_running _)
    · exact State.advance_pc_toNat _
  | loadRegs x =>
    obtain ⟨-, rfl⟩ | ⟨bs, -, rfl⟩ := exec_loadRegs_cases h
    · exact absurd hrun (s.enterFault_not_running _)
    · exact State.advance_pc_toNat _
  | _ => cases h; exact State.advance_pc_toNat _

/-! ## The frame rule -/

/-- The instructions that may change VF (R12): the flag writers, DRW, and those whose destination is
register 15. -/
def MayWriteVf (i : Instr) : Prop :=
  (∃ x y, i = .addReg x y ∨ i = .subReg x y ∨ i = .shr x y ∨ i = .subnReg x y ∨ i = .shl x y) ∨
  (∃ x y n, i = .drw x y n) ∨
  (∃ kk, i = .ldImm 15 kk ∨ i = .addImm 15 kk ∨ i = .rnd 15 kk) ∨
  (∃ y, i = .ldReg 15 y ∨ i = .orReg 15 y ∨ i = .andReg 15 y ∨ i = .xorReg 15 y) ∨
  i = .loadRegs 15

/-- The frame rule (R12), part by part: the part is unchanged, or the instruction is listed for it. -/
structure FrameRule (i : Instr) (s t : State) : Prop where
  mem : t.mem = s.mem ∨ ∃ x, i = .storeRegs x
  index : t.i = s.i ∨ (∃ nnn, i = .ldI nnn) ∨ ∃ x, i = .addI x
  display : (t.display = s.display ∧ t.redraw = s.redraw) ∨ i = .cls ∨ ∃ x y n, i = .drw x y n
  stack : (t.sp = s.sp ∧ t.stk = s.stk) ∨ (∃ nnn, i = .call nnn) ∨ i = .ret
  vf : t.vf = s.vf ∨ MayWriteVf i

section
variable {i : Instr} {s t : State}

theorem frameRule_of_unchanged (hmem : t.mem = s.mem) (hi : t.i = s.i)
    (hdisplay : t.display = s.display) (hredraw : t.redraw = s.redraw) (hsp : t.sp = s.sp)
    (hstk : t.stk = s.stk) (hvf : t.vf = s.vf ∨ MayWriteVf i) : FrameRule i s t :=
  ⟨.inl hmem, .inl hi, .inl ⟨hdisplay, hredraw⟩, .inl ⟨hsp, hstk⟩, hvf⟩

/-- A fault keeps to the frame of every instruction (R202). -/
theorem frameRule_enterFault (i : Instr) (s : State) (c : Cause) : FrameRule i s (s.enterFault c) :=
  frameRule_of_unchanged rfl rfl rfl rfl rfl rfl (.inl rfl)

/-- A skip touches PC only (R133 to R136). -/
theorem frameRule_skipIf (i : Instr) (s : State) (c : Bool) : FrameRule i s (s.skipIf c) :=
  frameRule_of_unchanged (s.skipIf_mem c) (s.skipIf_i c) (s.skipIf_display c) (s.skipIf_redraw c)
    (s.skipIf_sp c) (s.skipIf_stk c) (.inl (s.reg_skipIf c Reg.vf))

/-- A register write keeps VF, or writes register 15 (R21). -/
theorem State.vf_setReg_or (s : State) (x : Reg) (b : Byte) : (s.setReg x b).vf = s.vf ∨ x = 15 := by
  by_cases hx : x = 15
  · exact .inr hx
  · exact .inl ((s.reg_setReg x Reg.vf b).trans (if_neg (Ne.symm hx)))

theorem frameRule_setReg (s : State) {x : Reg} (b : Byte) (hx : x = 15 → MayWriteVf i) :
    FrameRule i s (s.setReg x b).advance :=
  frameRule_of_unchanged rfl rfl rfl rfl rfl rfl ((s.vf_setReg_or x b).imp_right hx)

theorem frameRule_setFlagThenReg (s : State) (g : Bool) (x : Reg) (b : Byte) (hvf : MayWriteVf i) :
    FrameRule i s (s.setFlagThenReg g x b).advance :=
  frameRule_of_unchanged rfl rfl rfl rfl rfl rfl (.inr hvf)

/-- Loading `V[0]` to `V[x]` reaches VF only with `x = 15` (R193). -/
theorem State.vf_loadRegs_or (s : State) {x : Reg} {bs : List Byte} (hlen : bs.length = x.val + 1) :
    (s.setRegs (loadRegsFrom s.v 0 bs)).vf = s.vf ∨ x = 15 := by
  by_cases hx : x = 15
  · exact .inr hx
  · have hval : x.val ≠ 15 := fun e => hx (Fin.ext e)
    have hout : ¬ (0 ≤ 15 ∧ 15 - 0 < bs.length) := by omega
    exact .inl ((loadRegsFrom_getElem s.v 0 bs 15 (by decide)).trans (dif_neg hout))

/-- Every instruction keeps to the frame rule, on its fault path too (R12). -/
theorem exec_frameRule (h : exec i s = .next t) : FrameRule i s t := by
  cases i with
  | cls => cases h; exact ⟨.inl rfl, .inl rfl, .inr (.inl rfl), .inl ⟨rfl, rfl⟩, .inl rfl⟩
  | drw x y n =>
    obtain ⟨-, rfl⟩ | ⟨sprite, -, rfl⟩ := exec_drw_cases h
    · exact frameRule_enterFault _ s _
    · exact ⟨.inl rfl, .inl rfl, .inr (.inr ⟨x, y, n, rfl⟩), .inl ⟨rfl, rfl⟩,
        .inr (.inr (.inl ⟨x, y, n, rfl⟩))⟩
  | call nnn =>
    obtain ⟨-, rfl⟩ | ⟨_, rfl⟩ := exec_call_cases h
    · exact frameRule_enterFault _ s _
    · exact ⟨.inl rfl, .inl rfl, .inl ⟨rfl, rfl⟩, .inr (.inl ⟨nnn, rfl⟩), .inl rfl⟩
  | ret =>
    obtain ⟨-, rfl⟩ | ⟨-, rfl⟩ := exec_ret_cases h
    · exact frameRule_enterFault _ s _
    · exact ⟨.inl rfl, .inl rfl, .inl ⟨rfl, rfl⟩, .inr (.inr rfl), .inl rfl⟩
  | ldI nnn =>
    cases h
    exact ⟨.inl rfl, .inr (.inl ⟨nnn, rfl⟩), .inl ⟨rfl, rfl⟩, .inl ⟨rfl, rfl⟩, .inl rfl⟩
  | addI x =>
    cases h
    exact ⟨.inl rfl, .inr (.inr ⟨x, rfl⟩), .inl ⟨rfl, rfl⟩, .inl ⟨rfl, rfl⟩, .inl rfl⟩
  | storeRegs x =>
    obtain ⟨-, rfl⟩ | ⟨m, -, rfl⟩ := exec_storeRegs_cases h
    · exact frameRule_enterFault _ s _
    · exact ⟨.inr ⟨x, rfl⟩, .inl rfl, .inl ⟨rfl, rfl⟩, .inl ⟨rfl, rfl⟩, .inl rfl⟩
  | loadRegs x =>
    obtain ⟨-, rfl⟩ | ⟨bs, hbs, rfl⟩ := exec_loadRegs_cases h
    · exact frameRule_enterFault _ s _
    · have hvf := s.vf_loadRegs_or (Memory.length_of_readRange hbs)
      exact frameRule_of_unchanged rfl rfl rfl rfl rfl rfl
        (hvf.imp_right fun hx => by simp [MayWriteVf, hx])
  | seImm x kk => cases h; exact frameRule_skipIf _ s _
  | sneImm x kk => cases h; exact frameRule_skipIf _ s _
  | seReg x y => cases h; exact frameRule_skipIf _ s _
  | sneReg x y => cases h; exact frameRule_skipIf _ s _
  | ldImm x kk => cases h; exact frameRule_setReg s _ fun hx => by simp [MayWriteVf, hx]
  | addImm x kk => cases h; exact frameRule_setReg s _ fun hx => by simp [MayWriteVf, hx]
  | rnd x kk =>
    cases h
    exact frameRule_of_unchanged rfl rfl rfl rfl rfl rfl
      ((s.vf_setReg_or x _).imp_right fun hx => by simp [MayWriteVf, hx])
  | ldReg x y => cases h; exact frameRule_setReg s _ fun hx => by simp [MayWriteVf, hx]
  | orReg x y => cases h; exact frameRule_setReg s _ fun hx => by simp [MayWriteVf, hx]
  | andReg x y => cases h; exact frameRule_setReg s _ fun hx => by simp [MayWriteVf, hx]
  | xorReg x y => cases h; exact frameRule_setReg s _ fun hx => by simp [MayWriteVf, hx]
  | addReg x y => cases h; exact frameRule_setFlagThenReg s _ x _ (by simp [MayWriteVf])
  | subReg x y => cases h; exact frameRule_setFlagThenReg s _ x _ (by simp [MayWriteVf])
  | shr x y => cases h; exact frameRule_setFlagThenReg s _ x _ (by simp [MayWriteVf])
  | subnReg x y => cases h; exact frameRule_setFlagThenReg s _ x _ (by simp [MayWriteVf])
  | shl x y => cases h; exact frameRule_setFlagThenReg s _ x _ (by simp [MayWriteVf])
  | exit => cases h; exact frameRule_of_unchanged rfl rfl rfl rfl rfl rfl (.inl rfl)
  | jp nnn => cases h; exact frameRule_of_unchanged rfl rfl rfl rfl rfl rfl (.inl rfl)
  | jpV0 nnn => cases h; exact frameRule_of_unchanged rfl rfl rfl rfl rfl rfl (.inl rfl)

/-- No instruction touches a timer (R12, R210). -/
theorem exec_sameTimers (h : exec i s = .next t) : s.SameTimers t := by
  have heffect := exec_effect i s
  rw [h] at heffect
  obtain ⟨-, -, hdt, hst, -⟩ := heffect
  exact ⟨hdt, hst⟩

end

/-- Settles O12: each clause is a part of the frame rule, read from the other side. -/
theorem onlyListedInstructionsChange : Obligations.OnlyListedInstructionsChange := by
  intro i s t h
  obtain ⟨hmem, hindex, hdisplay, hstack, hvf⟩ := exec_frameRule h
  refine ⟨fun ⟨a, ha⟩ => hmem.resolve_left fun e => ha (by rw [e]), hindex.resolve_left,
    fun hd => hdisplay.resolve_left ?_, fun hs => hstack.resolve_left ?_, exec_sameTimers h,
    hvf.resolve_left⟩
  · rintro ⟨hpixels, hredraw⟩
    obtain ⟨cx, cy, hne⟩ | hne := hd
    · exact hne (by rw [hpixels])
    · exact hne hredraw
  · rintro ⟨hsp, hstk⟩
    exact hs.elim (· hsp) (· hstk)

end Sys2Proof.Machine

/-! PROOFS. The items of state: the state invariant over steps and events (R35), the byte of STEP(r)
(R43), RESET (R40, R42), the boot order of LOAD (R44) and the outputs (R47). -/

namespace Sys2Proof.Machine

open Sys2Proof

/-! ## One STEP, case by case -/

section
variable {s t : State} {w : Word}

/-- A STEP of a terminal machine changes nothing (R205). -/
theorem step_of_terminal (h : s.terminal) : step s = .next s := by
  cases hms : s.ms with
  | running => exact absurd hms h
  | faulted => simp only [step, hms]
  | halted => simp only [step, hms]

theorem step_of_fetch_none (hms : s.ms = .running) (hf : s.fetch = none) :
    step s = .next (s.enterFault .addressOutOfRange) := by
  simp only [step, hms, hf, raiseFault]

theorem step_of_decode_error {e : Illegal} (hms : s.ms = .running) (hf : s.fetch = some w)
    (hd : decode w = .error e) :
    step s = .next ((s.setLast w).enterFault .unknownInstruction) := by
  simp only [step, hms, hf, hd, raiseFault]

theorem step_of_decode_ok {i : Instr} (hms : s.ms = .running) (hf : s.fetch = some w)
    (hd : decode w = .ok i) : step s = exec i (s.setLast w) := by
  simp only [step, hms, hf, hd]

/-- Only a next state has an effect: no instruction stops the model (log entry 5). -/
theorem Effect.exists_next {a : Result} (h : Effect s a) : ∃ u, a = .next u := by
  cases a with
  | next u => exact ⟨u, rfl⟩
  | fault f => exact h.elim
  | refused e => exact h.elim

/-- A STEP changes nothing, or finds MS RUNNING and has an instruction's effect, on the state whose
LAST it has written (R205). A fetch that faults is the case in which LAST keeps its value. -/
theorem step_effect (s : State) :
    (s.terminal ∧ step s = .next s) ∨ (s.ms = .running ∧ ∃ w, Effect (s.setLast w) (step s)) := by
  obtain ⟨hms, hs⟩ | ⟨hms, -, hs⟩ | ⟨w, e, hms, -, -, -, hs⟩ | ⟨w, i, hms, -, -, -, hs⟩ :=
    step_cases s
  · exact .inl ⟨hms, hs⟩
  · exact .inr ⟨hms, s.last, hs ▸ effect_raiseFault s (by decide)⟩
  · exact .inr ⟨hms, w, hs ▸ effect_raiseFault (s.setLast w) (by decide)⟩
  · exact .inr ⟨hms, w, hs ▸ exec_effect i (s.setLast w)⟩

/-- Every STEP answers a next state (R205, log entry 5). -/
theorem step_exists_next (s : State) : ∃ t, step s = .next t := by
  obtain ⟨-, hs⟩ | ⟨-, w, heffect⟩ := step_effect s
  · exact ⟨s, hs⟩
  · exact heffect.exists_next

/-! ## The state invariant over a STEP -/

theorem MemEffect.wf (h : MemEffect s t) (hwf : s.mem.wf) : t.mem.wf := by
  obtain hmem | ⟨bs, hw⟩ := h
  · rwa [hmem]
  · exact Memory.writeRange_wf hwf hw

theorem MemEffect.font (h : MemEffect s t) : t.mem.font = s.mem.font := by
  obtain hmem | ⟨bs, hw⟩ := h
  · rw [hmem]
  · exact (Memory.writeRange_spec hw).1

/-- From RUNNING, MS and CAUSE stay in step (R31). From FAULTED they would not: EXIT would halt and
keep the cause. -/
theorem ControlEffect.faulted_iff (h : ControlEffect s t) (hrun : s.ms = .running)
    (hcause : s.ms = .faulted ↔ s.cause ≠ .none) : t.ms = .faulted ↔ t.cause ≠ .none := by
  obtain ⟨hms, hc⟩ | ⟨hms, hc⟩ | ⟨hms, hc⟩ := h
  · rwa [hms, hc]
  · rw [hc, ← hcause, hms, hrun]
    decide
  · exact iff_of_true hms hc

/-- Settles O36: by the effect of the STEP on memory, and on MS and CAUSE. -/
theorem stepKeepsInvariant : Obligations.StepKeepsInvariant := by
  rintro s t ⟨hwf, hcause⟩ h
  obtain ⟨-, hs⟩ | ⟨hrun, w, heffect⟩ := step_effect s
  · cases hs.symm.trans h
    exact ⟨hwf, hcause⟩
  · rw [h] at heffect
    obtain ⟨hmem, hcontrol, -⟩ := heffect
    exact ⟨hmem.wf hwf, hcontrol.faulted_iff hrun hcause⟩

/-- A STEP keeps the timers and the font parameters (R5, R210). -/
theorem step_timers_font (h : step s = .next t) :
    t.dt = s.dt ∧ t.st = s.st ∧ t.mem.font = s.mem.font := by
  obtain ⟨-, hs⟩ | ⟨-, w, heffect⟩ := step_effect s
  · cases hs.symm.trans h
    exact ⟨rfl, rfl, rfl⟩
  · rw [h] at heffect
    obtain ⟨hmem, -, hdt, hst, -⟩ := heffect
    exact ⟨hdt, hst, hmem.font⟩

/-! ## The events, case by case -/

/-- STEP(r) is a STEP with the byte at hand, and the byte is gone afterwards (R43). -/
theorem stepWith_eq {r : Byte} (h : step (s.setEntropy (some r)) = .next t) :
    stepWith r s = .next (t.setEntropy none) := by
  simp only [stepWith, h]

/-- STEP(r) of a terminal machine leaves all of the spec's state as it was (R205). -/
theorem stepWith_of_terminal (r : Byte) (h : s.terminal) :
    stepWith r s = .next (s.setEntropy none) :=
  stepWith_eq (t := s.setEntropy (some r)) (step_of_terminal h)

theorem stepWith_exists_step (r : Byte) (s : State) :
    ∃ t, step (s.setEntropy (some r)) = .next t ∧ stepWith r s = .next (t.setEntropy none) := by
  obtain ⟨t, ht⟩ := step_exists_next (s.setEntropy (some r))
  exact ⟨t, ht, stepWith_eq ht⟩

theorem Block.handle_step_eq {b : Block} {r : Byte} (h : stepWith r b.state = .next t) :
    b.handle (.step r) = .next (⟨.started, t⟩, .status t.ms) := by
  simp only [Block.handle, Block.onStep, h]

/-- A LOAD that succeeds changes memory only (R243). -/
theorem State.load_cases {bytes : List Byte} (h : s.load bytes = some t) :
    ∃ m, s.mem.writeRange Config.progBase bytes = some m ∧ t = s.setMem m := by
  simp only [State.load] at h
  split at h
  · split at h
    · cases h
    · cases h
      exact ⟨_, ‹_›, rfl⟩
  · cases h

/-- A LOAD that is answered leaves the block as it was, or loads the image (R243). -/
theorem Block.handle_load_cases {b b' : Block} {bytes : List Byte} {r : Reply}
    (h : b.handle (.load bytes) = .next (b', r)) :
    b' = b ∨ ∃ u, b.state.load bytes = some u ∧ b' = ⟨.loaded, u⟩ := by
  simp only [Block.handle, Block.onLoad] at h
  split at h
  · cases h
  · cases h
  · split at h
    · cases h
      exact .inl rfl
    · cases h
      exact .inr ⟨_, ‹_›, rfl⟩

end

/-! ## The invariant over events -/

/-- RestInv as a predicate of the state: the boot order's phase has no part in it. -/
def State.AtRest (font : Config.FontParams) (s : State) : Prop :=
  s.Inv ∧ s.dt = 0 ∧ s.st = 0 ∧ s.mem.font = font

theorem Block.restInv_iff {font : Config.FontParams} {b : Block} :
    b.RestInv font ↔ b.state.AtRest font := Iff.rfl

theorem State.inv_resetWith (font : Config.FontParams) : (State.resetWith font).Inv :=
  ⟨⟨.nil, fun _ hc => absurd hc List.not_mem_nil⟩, iff_of_false MState.noConfusion (· rfl)⟩

/-- Settles O35. -/
theorem resetMeetsInvariant : Obligations.ResetMeetsInvariant :=
  ⟨State.inv_resetWith defaultFont, State.inv_resetWith⟩

section
variable {font : Config.FontParams} {s t : State}

theorem State.atRest_resetWith (font : Config.FontParams) : (State.resetWith font).AtRest font :=
  ⟨State.inv_resetWith font, rfl, rfl, rfl⟩

theorem State.AtRest.onReset (h : s.AtRest font) : s.onReset.AtRest font := by
  obtain ⟨-, -, -, hfont⟩ := h
  exact ⟨State.inv_resetWith s.mem.font, rfl, rfl, hfont⟩

theorem State.AtRest.load {bytes : List Byte} (h : s.AtRest font) (hl : s.load bytes = some t) :
    t.AtRest font := by
  obtain ⟨⟨hwf, hcause⟩, hdt, hst, hfont⟩ := h
  obtain ⟨m, hw, rfl⟩ := State.load_cases hl
  exact ⟨⟨Memory.writeRange_wf hwf hw, hcause⟩, hdt, hst, (Memory.writeRange_spec hw).1.trans hfont⟩

theorem State.AtRest.step (h : s.AtRest font) (hs : step s = .next t) : t.AtRest font := by
  obtain ⟨hinv, hdt, hst, hfont⟩ := h
  obtain ⟨hdt', hst', hfont'⟩ := step_timers_font hs
  exact ⟨stepKeepsInvariant s t hinv hs, hdt'.trans hdt, hst'.trans hst, hfont'.trans hfont⟩

/-- Timers at 0 stay at 0 (R208). -/
theorem State.AtRest.tick (h : s.AtRest font) : s.tick.AtRest font := by
  obtain ⟨hinv, hdt, hst, hfont⟩ := h
  exact ⟨hinv, congrArg tickTimer hdt, congrArg tickTimer hst, hfont⟩

end

/-- Settles O46: event by event. -/
theorem eventsKeepInvariant : Obligations.EventsKeepInvariant := by
  refine fun font => ⟨State.atRest_resetWith font, fun b b' e r hb h => ?_⟩
  rw [Block.restInv_iff] at hb ⊢
  cases e with
  | reset => cases h; exact hb.onReset
  | load bytes =>
    obtain rfl | ⟨t, ht, rfl⟩ := Block.handle_load_cases h
    · exact hb
    · exact hb.load ht
  | step x =>
    obtain ⟨t, hs, ht⟩ := stepWith_exists_step x b.state
    cases (Block.handle_step_eq ht).symm.trans h
    exact State.AtRest.step (s := b.state.setEntropy (some x)) (t := t) hb hs
  | tick => cases h; exact hb.tick
  | consumeRedraw => cases h; exact hb

theorem Block.Reachable.restInv {font : Config.FontParams} {b : Block} (h : b.Reachable font) :
    b.RestInv font := by
  obtain ⟨hstart, hevent⟩ := eventsKeepInvariant font
  induction h with
  | start => exact hstart
  | event b b' e r _ hstep ih => exact hevent b b' e r ih hstep

/-- Settles O37: by induction over the events, with RestInv as the invariant. -/
theorem reachableStatesMeetInvariant : Obligations.ReachableStatesMeetInvariant := by
  intro font b h
  obtain ⟨hinv, hdt, hst, hfont⟩ := h.restInv
  have hsound : b.state.outSoundActive = 0 := by simp [State.outSoundActive, hst]
  exact ⟨hinv, hdt, hst, hsound, hfont, step_of_terminal⟩

/-! ## The byte of STEP(r) -/

@[simp] theorem State.dataAddr_setEntropy (s : State) (e : Option Byte) (k : Nat) :
    (s.setEntropy e).dataAddr k = s.dataAddr k := rfl

@[simp] theorem State.regsUpTo_setEntropy (s : State) (e : Option Byte) (x : Reg) :
    (s.setEntropy e).regsUpTo x = s.regsUpTo x := rfl

theorem State.setEntropy_skipIf (s : State) (e : Option Byte) (c : Bool) :
    (s.setEntropy e).skipIf c = (s.skipIf c).setEntropy e := by
  cases c <;> rfl

section
variable {s t : State} {e : Option Byte} {i : Instr}

/-- An instruction other than RND neither reads nor changes the byte at hand (R43, R154). -/
theorem exec_setEntropy (hi : ∀ x kk, i ≠ .rnd x kk) (h : exec i s = .next t) :
    exec i (s.setEntropy e) = .next (t.setEntropy e) := by
  cases i with
  | rnd x kk => exact absurd rfl (hi x kk)
  | ret =>
    obtain ⟨hsp, rfl⟩ | ⟨hsp, rfl⟩ := exec_ret_cases h
    · simp only [exec, execRet, (State.pop_eq_none (s.setEntropy e)).2 hsp]
      rfl
    · simp only [exec, execRet, State.pop_eq_some (s.setEntropy e) hsp]
      rfl
  | call nnn =>
    obtain ⟨hsp, rfl⟩ | ⟨hsp, rfl⟩ := exec_call_cases h
    · simp only [exec, execCall, (State.push_eq_none (s.setEntropy e) _).2 hsp]
      rfl
    · simp only [exec, execCall, State.push_eq_some (s.setEntropy e) _ hsp]
      rfl
  | drw x y n =>
    obtain ⟨hr, rfl⟩ | ⟨sprite, hr, rfl⟩ := exec_drw_cases h <;>
    · simp only [exec, execDrw, State.setEntropy_mem, State.dataAddr_setEntropy, hr]
      rfl
  | storeRegs x =>
    obtain ⟨hw, rfl⟩ | ⟨m, hw, rfl⟩ := exec_storeRegs_cases h <;>
    · simp only [exec, execStoreRegs, State.setEntropy_mem, State.dataAddr_setEntropy,
        State.regsUpTo_setEntropy, hw]
      rfl
  | loadRegs x =>
    obtain ⟨hr, rfl⟩ | ⟨bs, hr, rfl⟩ := exec_loadRegs_cases h <;>
    · simp only [exec, execLoadRegs, State.setEntropy_mem, State.dataAddr_setEntropy, hr]
      rfl
  | seImm x kk => cases h; exact congrArg _ (s.setEntropy_skipIf e _)
  | sneImm x kk => cases h; exact congrArg _ (s.setEntropy_skipIf e _)
  | seReg x y => cases h; exact congrArg _ (s.setEntropy_skipIf e _)
  | sneReg x y => cases h; exact congrArg _ (s.setEntropy_skipIf e _)
  | _ => cases h; rfl

/-- A STEP that does not execute a RND neither reads nor changes the byte at hand. -/
theorem step_setEntropy (hno : ∀ w x kk, s.fetch = some w → decode w ≠ .ok (.rnd x kk))
    (h : step s = .next t) : step (s.setEntropy e) = .next (t.setEntropy e) := by
  by_cases hms : s.ms = .running
  · cases hf : s.fetch with
    | none =>
      cases (step_of_fetch_none hms hf).symm.trans h
      exact step_of_fetch_none (s := s.setEntropy e) hms hf
    | some w =>
      cases hd : decode w with
      | error _ =>
        cases (step_of_decode_error hms hf hd).symm.trans h
        exact step_of_decode_error (s := s.setEntropy e) hms hf hd
      | ok i =>
        have hi : ∀ x kk, i ≠ .rnd x kk := fun x kk hrnd => hno w x kk hf (hrnd ▸ hd)
        have hexec : exec i (s.setLast w) = .next t := (step_of_decode_ok hms hf hd).symm.trans h
        exact (step_of_decode_ok (s := s.setEntropy e) hms hf hd).trans (exec_setEntropy hi hexec)
  · cases (step_of_terminal hms).symm.trans h
    exact step_of_terminal (s := s.setEntropy e) hms

/-- Where no RND is executed, STEP(r) is STEP without a byte at hand. -/
theorem stepWith_of_no_rnd (r : Byte)
    (hno : ∀ w x kk, s.fetch = some w → decode w ≠ .ok (.rnd x kk)) (h : step s = .next t) :
    stepWith r s = .next (t.setEntropy none) :=
  stepWith_eq (t := t.setEntropy (some r)) (step_setEntropy hno h)

/-- STEP(r) of a RND in full (R43, R154, R205). -/
theorem stepWith_rnd {w : Word} {x : Reg} {kk : Byte} (r : Byte) (hms : s.ms = .running)
    (hf : s.fetch = some w) (hd : decode w = .ok (.rnd x kk)) :
    stepWith r s =
      .next ((((s.setLast w).setReg x (r &&& kk)).useDraw.advance).setEntropy none) :=
  stepWith_eq (t := ((s.setLast w).setReg x (r &&& kk)).useDraw.advance)
    (step_of_decode_ok (s := s.setEntropy (some r)) hms hf hd)

end

/-- Settles O23: without a RND both STEPs are the STEP without a byte; a RND is given in full. -/
theorem randomInputOnlyForRnd : Obligations.RandomInputOnlyForRnd := by
  constructor
  · intro s r r' hno
    obtain ⟨t, ht⟩ := step_exists_next s
    rw [stepWith_of_no_rnd r hno ht, stepWith_of_no_rnd r' hno ht]
  · intro s w x kk r hms hf hd
    have hother : s.SameRegsBut [x]
        ((((s.setLast w).setReg x (r &&& kk)).useDraw.advance).setEntropy none) := fun k hk => by
      simp [List.mem_singleton.not.1 hk]
    exact ⟨_, stepWith_rnd r hms hf hd, by simp, rfl, State.advance_pc_toNat _, rfl, hother,
      ⟨rfl, rfl⟩, ⟨fun _ _ => rfl, rfl⟩, ⟨rfl, rfl⟩, rfl, rfl, rfl, fun _ => rfl⟩

/-! ## RESET, LOAD and CONSUME_REDRAW -/

section
variable {a : Nat}

/-- With nothing written, a byte inside memory reads as the background (R40; log entry 4). -/
theorem State.read_resetWith (font : Config.FontParams) (h : a < 4096) :
    (State.resetWith font).mem.read a = some ((State.resetWith font).mem.background a) :=
  if_pos h

theorem Memory.background_font (m : Memory) {k : Nat} (hk : k < 80) :
    m.background (m.font.base.val + k) = m.font.bytes[k] := by
  simp [Memory.background, hk]

theorem Memory.background_zero (m : Memory) (h : ∀ k < 80, a ≠ m.font.base.val + k) :
    m.background a = 0 := by
  refine dif_neg fun ⟨hlo, hhi⟩ => h (a - m.font.base.val) ?_ ?_ <;> omega

end

/-- Settles O38: the fields by computation, memory by the background. -/
theorem resetValues : Obligations.ResetValues := by
  intro font
  have hzero (k : Nat) (hk : k < 16) : (State.resetWith font).stk[k] = 0 :=
    Vector.getElem_replicate hk
  have hfont (k : Nat) (hk : k < 80) :
      (State.resetWith font).mem.read (font.base.val + k) = some font.bytes[k] := by
    rw [State.read_resetWith font (by omega)]
    exact congrArg some (Memory.background_font _ hk)
  have hbeside (a : Nat) (ha : a ≤ 0xFFF) (hout : ∀ k < 80, a ≠ font.base.val + k) :
      (State.resetWith font).mem.read a = some 0 := by
    rw [State.read_resetWith font (by omega)]
    exact congrArg some (Memory.background_zero _ hout)
  have habove (a : Nat) (ha : 0xFFF < a) : (State.resetWith font).mem.read a = none :=
    if_neg (by simp only [Config.memSize]; omega)
  exact ⟨fun r => Vector.getElem_replicate r.isLt, rfl, rfl, rfl, hzero, rfl, rfl,
    Display.pixel_clear, rfl, rfl, rfl, rfl, hfont, hbeside, habove⟩

/-- Settles O39: a STEP keeps a terminal state, and no other event but RESET writes MS or CAUSE. -/
theorem resetIsTheOnlyRecovery : Obligations.ResetIsTheOnlyRecovery := by
  refine ⟨fun b => rfl, fun b b' e r hterminal h hne => ?_⟩
  cases e with
  | reset => exact absurd rfl hne
  | load bytes =>
    obtain rfl | ⟨t, ht, rfl⟩ := Block.handle_load_cases h
    · exact ⟨rfl, rfl⟩
    · obtain ⟨m, -, rfl⟩ := State.load_cases ht
      exact ⟨rfl, rfl⟩
  | step x =>
    cases (Block.handle_step_eq (stepWith_of_terminal x hterminal)).symm.trans h
    exact ⟨rfl, rfl⟩
  | tick => cases h; exact ⟨rfl, rfl⟩
  | consumeRedraw => cases h; exact ⟨rfl, rfl⟩

/-- A LOAD after the first success or the first STEP is refused, whatever the image (R44, R244). -/
theorem Block.handle_load_refused {b : Block} (h : b.phase ≠ .fresh) (bytes : List Byte) :
    b.handle (.load bytes) = .refused .loadOutOfOrder := by
  cases hphase : b.phase with
  | fresh => exact absurd hphase h
  | loaded => simp only [Block.handle, Block.onLoad, hphase]
  | started => simp only [Block.handle, Block.onLoad, hphase]

/-- Settles O41: LOAD by the phase; every STEP is answered. -/
theorem loadOutOfOrderIsRefused : Obligations.LoadOutOfOrderIsRefused := by
  refine ⟨fun b bytes h => Block.handle_load_refused h bytes, fun b r => ?_⟩
  obtain ⟨t, -, ht⟩ := stepWith_exists_step r b.state
  exact ⟨_, Block.handle_step_eq ht⟩

/-- Settles O43. -/
theorem consumeRedrawClearsFlag : Obligations.ConsumeRedrawClearsFlag :=
  fun b => ⟨b.state.consumeRedraw, rfl, rfl, rfl⟩

/-! ## The outputs -/

/-- Settles O45: the codes by cases, the snapshot by its law. -/
theorem outputsReadState : Obligations.OutputsReadState := by
  refine fun s => ⟨?_, ?_, rfl, apply_ite BitVec.toNat _ _ _, s.display.snapshot_getLsbD,
    apply_ite BitVec.toNat _ _ _⟩
  · unfold State.outState
    cases s.ms <;> rfl
  · unfold State.outFaultCause
    cases s.cause <;> rfl

end Sys2Proof.Machine

/-! PROOFS. Memory: the fetch, big-endian and range-checked (R63, R68, R205), the transfers that
leave memory (D3), and a store read by the next fetch (R71). -/

namespace Sys2Proof.Machine

open Sys2Proof

/-! ## The fetch -/

theorem Memory.read_of_le (m : Memory) {a : Nat} (h : a ≤ 0xFFF) : m.read a = some (m.get a) :=
  (m.read_eq a).trans (if_pos (by omega))

section
variable {s : State}

/-- The fetched word is made of the two bytes at PC, high byte first (R63). -/
theorem State.fetch_of_read {hi lo : Byte} (hhi : s.mem.read s.pc.toNat = some hi)
    (hlo : s.mem.read (s.pc.toNat + 1) = some lo) : s.fetch = some (wordOfBytes hi lo) := by
  simp only [State.fetch, hhi, hlo]

theorem State.fetch_eq_none (h : 0xFFE < s.pc.toNat) : s.fetch = none :=
  s.fetch_eq.trans (if_neg (by omega))

end

/-- Settles O6: the two bytes are the fetched word, and it decodes to the instruction. -/
theorem stepRunsDecodedInstruction : Obligations.StepRunsDecodedInstruction :=
  fun _ _ _ _ hms hhi hlo hd => step_of_decode_ok hms (State.fetch_of_read hhi hlo) hd

/-- Settles O7: above 0xFFE the fetch answers nothing, up to it both bytes are inside memory. -/
theorem fetchRangeAndByteOrder : Obligations.FetchRangeAndByteOrder := by
  refine fun s hms => ⟨fun h => step_of_fetch_none hms (State.fetch_eq_none h), fun h => ?_⟩
  have hhi := s.mem.read_of_le (a := s.pc.toNat) (by omega)
  have hlo := s.mem.read_of_le (a := s.pc.toNat + 1) (by omega)
  exact ⟨_, _, hhi, hlo, State.fetch_of_read hhi hlo⟩

/-! ## Transfers -/

/-- Several byte reads answer nothing exactly when one is out of range (R68). -/
theorem Memory.readRange_eq_none (m : Memory) (a n : Nat) :
    m.readRange a n = none ↔ ¬ RangeOk a n := by
  simp [Memory.readRange_eq]

section
variable {x : Reg} {s : State}

/-- A sprite with a byte above 0xFFF faults (R68, R181; D3). -/
theorem exec_drw_out_of_range (y : Reg) {n : Count} (hn : 1 ≤ n.val)
    (h : 0xFFF < s.i.toNat + n.val - 1) :
    exec (.drw x y n) s = .next (s.enterFault .addressOutOfRange) := by
  have hr : s.mem.readRange (s.dataAddr 0) n.val = none :=
    (Memory.readRange_eq_none ..).2 (by simp only [RangeOk, State.dataAddr]; omega)
  simp only [exec, execDrw, hr, raiseFault]

/-- A store with a byte above 0xFFF faults (R68, R192; D3). -/
theorem exec_storeRegs_out_of_range (h : 0xFFF < s.i.toNat + x.val) :
    exec (.storeRegs x) s = .next (s.enterFault .addressOutOfRange) := by
  have hw : s.mem.writeRange (s.dataAddr 0) (s.regsUpTo x) = none :=
    (Memory.writeRange_eq_none ..).2 (by
      simp only [RangeOk, State.dataAddr, State.length_regsUpTo]; omega)
  simp only [exec, execStoreRegs, hw, raiseFault]

/-- A load with a byte above 0xFFF faults (R68, R193; D3). -/
theorem exec_loadRegs_out_of_range (h : 0xFFF < s.i.toNat + x.val) :
    exec (.loadRegs x) s = .next (s.enterFault .addressOutOfRange) := by
  have hr : s.mem.readRange (s.dataAddr 0) (x.val + 1) = none :=
    (Memory.readRange_eq_none ..).2 (by simp only [RangeOk, State.dataAddr]; omega)
  simp only [exec, execLoadRegs, hr, raiseFault]

/-- A store that ends inside memory writes its range of registers and advances (R68, R192). -/
theorem exec_storeRegs_in_range (h : s.i.toNat + x.val ≤ 0xFFF) :
    ∃ m, s.mem.writeRange (s.dataAddr 0) (s.regsUpTo x) = some m ∧
      exec (.storeRegs x) s = .next (s.setMem m).advance := by
  obtain ⟨m, hw⟩ := (Memory.writeRange_isSome s.mem (s.dataAddr 0) (s.regsUpTo x)).2 (by
    simp only [RangeOk, State.dataAddr, State.length_regsUpTo]; omega)
  exact ⟨m, hw, by simp only [exec, execStoreRegs, hw]⟩

/-- After a store of `V[0..x]`, the address `I + k` reads `V[k]` (R190, R192). -/
theorem State.read_of_writeRange_regsUpTo {m : Memory}
    (hw : s.mem.writeRange (s.dataAddr 0) (s.regsUpTo x) = some m) {k : Reg} (hk : k.val ≤ x.val) :
    m.read (s.dataAddr k.val) = some (s.reg k) := by
  have hsub : s.dataAddr k.val - s.dataAddr 0 = k.val := by simp only [State.dataAddr]; omega
  have hin : s.dataAddr 0 ≤ s.dataAddr k.val ∧
      s.dataAddr k.val - s.dataAddr 0 < (s.regsUpTo x).length := by
    rw [hsub, State.length_regsUpTo]
    simp only [State.dataAddr]; omega
  rw [(Memory.writeRange_spec hw).2, dif_pos hin, State.getElem_regsUpTo]
  simp only [hsub]

end

/-- Settles O32: the range check fails before anything is written. -/
theorem transfersOutOfRangeFault : Obligations.TransfersOutOfRangeFault :=
  fun _ y _ _ => ⟨exec_drw_out_of_range y,
    fun h => ⟨exec_storeRegs_out_of_range h, exec_loadRegs_out_of_range h⟩⟩

/-- Settles O34: the advanced PC is I, where the store has put `V[0]` and then `V[1]`. -/
theorem storedCodeIsFetched : Obligations.StoredCodeIsFetched := by
  intro x s hx hrange hnext
  obtain ⟨m, hw, hexec⟩ := exec_storeRegs_in_range hrange
  have hpc : (s.setMem m).advance.pc.toNat = s.i.toNat :=
    (State.advance_pc_toNat _).trans (by simp only [State.setMem_pc]; omega)
  have hhi : m.read s.i.toNat = some (s.reg 0) :=
    State.read_of_writeRange_regsUpTo hw (k := 0) (Nat.zero_le _)
  have hlo : m.read (s.i.toNat + 1) = some (s.reg 1) :=
    State.read_of_writeRange_regsUpTo hw (k := 1) hx
  exact ⟨_, hexec, State.fetch_of_read (hpc ▸ hhi) (hpc ▸ hlo)⟩

end Sys2Proof.Machine

/-! PROOFS. The encoding: packing the decoded fields gives the word back (R91, R92), so decoding
inverts encoding, and legality is the opcode map's (R94, R104) and the families' (R96, R97, R99). -/

namespace Sys2Proof

open Machine

/-! ## The word of its own fields -/

section
variable {w : Word} {op : Fin 16}

theorem packNNN_ofWord {nnn : Addr} (hop : (Fields.ofWord w).op = op)
    (hnnn : (Fields.ofWord w).nnn = nnn) : packNNN op nnn = w := by
  subst hop hnnn
  apply BitVec.eq_of_toNat_eq
  rw [packNNN_toNat, Fields.ofWord_op, Fields.ofWord_nnn]
  omega

theorem packXKK_ofWord {kk : Byte} (hop : (Fields.ofWord w).op = op)
    (hkk : (Fields.ofWord w).kk = kk) : packXKK op (Fields.ofWord w).x kk = w := by
  subst hop hkk
  apply BitVec.eq_of_toNat_eq
  rw [packXKK_toNat, Fields.ofWord_op, Fields.ofWord_x, Fields.ofWord_kk]
  omega

theorem packXYN_ofWord {n : Count} (hop : (Fields.ofWord w).op = op)
    (hn : (Fields.ofWord w).n = n) :
    packXYN op (Fields.ofWord w).x (Fields.ofWord w).y n = w := by
  subst hop hn
  apply BitVec.eq_of_toNat_eq
  rw [packXYN_toNat, Fields.ofWord_op, Fields.ofWord_x, Fields.ofWord_y, Fields.ofWord_n]
  omega

end

/-! ## Decoding and encoding -/

section
variable {w : Word} {i : Instr}

theorem encode_of_dispatch0 (hop : (Fields.ofWord w).op = 0x0)
    (h : dispatch0 (Fields.ofWord w) = .ok i) : encode i = w := by
  unfold dispatch0 at h
  split_ifs at h with hnnn hnnn hnnn
  all_goals
    cases h
    rw [← packNNN_ofWord hop hnnn]
    decide

theorem encode_of_dispatch5 (hop : (Fields.ofWord w).op = 0x5)
    (h : dispatch5 (Fields.ofWord w) = .ok i) : encode i = w := by
  unfold dispatch5 at h
  split_ifs at h with hn
  cases h
  exact packXYN_ofWord hop hn

theorem encode_of_dispatch8 (hop : (Fields.ofWord w).op = 0x8)
    (h : dispatch8 (Fields.ofWord w) = .ok i) : encode i = w := by
  unfold dispatch8 at h
  split_ifs at h with hn hn hn hn hn hn hn hn hn
  all_goals
    cases h
    exact packXYN_ofWord hop hn

theorem encode_of_dispatch9 (hop : (Fields.ofWord w).op = 0x9)
    (h : dispatch9 (Fields.ofWord w) = .ok i) : encode i = w := by
  unfold dispatch9 at h
  split_ifs at h with hn
  cases h
  exact packXYN_ofWord hop hn

theorem encode_of_dispatchF (hop : (Fields.ofWord w).op = 0xF)
    (h : dispatchF (Fields.ofWord w) = .ok i) : encode i = w := by
  unfold dispatchF at h
  split_ifs at h with hkk hkk hkk
  all_goals
    cases h
    exact packXKK_ofWord hop hkk

/-- A legal word is its instruction's word: each family, in the order of `dispatch`, packs the fields
it has read. -/
theorem encode_of_decode (h : decode w = .ok i) : encode i = w := by
  unfold decode dispatch at h
  split at h
  next hop => exact encode_of_dispatch0 hop h
  next hop => cases h; exact packNNN_ofWord hop rfl
  next hop => cases h; exact packNNN_ofWord hop rfl
  next hop => cases h; exact packXKK_ofWord hop rfl
  next hop => cases h; exact packXKK_ofWord hop rfl
  next hop => exact encode_of_dispatch5 hop h
  next hop => cases h; exact packXKK_ofWord hop rfl
  next hop => cases h; exact packXKK_ofWord hop rfl
  next hop => exact encode_of_dispatch8 hop h
  next hop => exact encode_of_dispatch9 hop h
  next hop => cases h; exact packNNN_ofWord hop rfl
  next hop => cases h; exact packNNN_ofWord hop rfl
  next hop => cases h; exact packXKK_ofWord hop rfl
  next hop => cases h; exact packXYN_ofWord hop rfl
  next => cases h
  next hop => exact encode_of_dispatchF hop h
  next hk _ => omega

end

/-- An instruction's word decodes to it: the fields packed in its format are the fields read. -/
theorem decode_encode (i : Instr) : decode (encode i) = .ok i := by
  unfold decode
  cases i with
  | cls | ret | exit => rfl
  | jp nnn | call nnn | ldI nnn | jpV0 nnn => simp [encode, dispatch, Fields.ofWord_packNNN]
  | seImm x kk | sneImm x kk | ldImm x kk | addImm x kk | rnd x kk =>
    simp [encode, dispatch, Fields.ofWord_packXKK]
  | seReg x y => simp [encode, dispatch, dispatch5, Fields.ofWord_packXYN]
  | ldReg x y | orReg x y | andReg x y | xorReg x y | addReg x y | subReg x y | shr x y
  | subnReg x y | shl x y => simp [encode, dispatch, dispatch8, Fields.ofWord_packXYN]
  | sneReg x y => simp [encode, dispatch, dispatch9, Fields.ofWord_packXYN]
  | drw x y n => simp [encode, dispatch, Fields.ofWord_packXYN]
  | addI x | storeRegs x | loadRegs x =>
    simp [encode, dispatch, dispatchF, Fields.ofWord_packXKK]

theorem decode_of_encode_eq {w : Word} {i : Instr} (h : encode i = w) : decode w = .ok i :=
  h ▸ decode_encode i

/-- Settles O2: packing the fields read, and reading the fields packed, give back what was there. -/
theorem decodeInvertsEncode : Obligations.DecodeInvertsEncode :=
  fun _ _ => ⟨encode_of_decode, decode_of_encode_eq⟩

/-- A word is legal exactly when it is some instruction's word. -/
theorem legal_iff_exists_encode {w : Word} : Legal w ↔ ∃ i, encode i = w :=
  exists_congr (decodeInvertsEncode w)

/-! ## The opcode map -/

/-- The law of `EncodedRow`, for every instruction at once. -/
theorem encodedRow_statement (i : Instr) : Laws.EncodedRow.Statement i := by
  cases i with
  | cls => exact Laws.EncodedRow.cls
  | ret => exact Laws.EncodedRow.ret
  | exit => exact Laws.EncodedRow.exit
  | jp nnn => exact Laws.EncodedRow.jp nnn
  | call nnn => exact Laws.EncodedRow.call nnn
  | seImm x kk => exact Laws.EncodedRow.seImm x kk
  | sneImm x kk => exact Laws.EncodedRow.sneImm x kk
  | seReg x y => exact Laws.EncodedRow.seReg x y
  | ldImm x kk => exact Laws.EncodedRow.ldImm x kk
  | addImm x kk => exact Laws.EncodedRow.addImm x kk
  | ldReg x y => exact Laws.EncodedRow.ldReg x y
  | orReg x y => exact Laws.EncodedRow.orReg x y
  | andReg x y => exact Laws.EncodedRow.andReg x y
  | xorReg x y => exact Laws.EncodedRow.xorReg x y
  | addReg x y => exact Laws.EncodedRow.addReg x y
  | subReg x y => exact Laws.EncodedRow.subReg x y
  | shr x y => exact Laws.EncodedRow.shr x y
  | subnReg x y => exact Laws.EncodedRow.subnReg x y
  | shl x y => exact Laws.EncodedRow.shl x y
  | sneReg x y => exact Laws.EncodedRow.sneReg x y
  | ldI nnn => exact Laws.EncodedRow.ldI nnn
  | jpV0 nnn => exact Laws.EncodedRow.jpV0 nnn
  | rnd x kk => exact Laws.EncodedRow.rnd x kk
  | drw x y n => exact Laws.EncodedRow.drw x y n
  | addI x => exact Laws.EncodedRow.addI x
  | storeRegs x => exact Laws.EncodedRow.storeRegs x
  | loadRegs x => exact Laws.EncodedRow.loadRegs x

theorem Instr.row_mem_opcodeMap (i : Instr) : i.row ∈ opcodeMap := by
  cases i <;> simp [Instr.row, opcodeMap, opcodeRowsPlain, opcodeRowsSub]

/-- Two rows that select one word agree on the bits that both masks keep. -/
theorem OpcodeRow.value_and_mask_eq {r r' : OpcodeRow} {w : Word} (h : r.selects w = true)
    (h' : r'.selects w = true) : r.value &&& r'.mask = r'.value &&& r.mask := by
  simp only [OpcodeRow.selects, beq_iff_eq] at h h'
  rw [← h, ← h', BitVec.and_assoc, BitVec.and_assoc, BitVec.and_comm r.mask]

/-- Any two rows of the map differ on a bit that both masks keep. -/
theorem opcodeMap_disjoint : ∀ r ∈ opcodeMap, ∀ r' ∈ opcodeMap,
    r.value &&& r'.mask = r'.value &&& r.mask → r = r' := by decide

/-- No word selects two rows of the map (R104). -/
theorem OpcodeRow.eq_of_selects {r r' : OpcodeRow} {w : Word} (hr : r ∈ opcodeMap)
    (hr' : r' ∈ opcodeMap) (h : r.selects w = true) (h' : r'.selects w = true) : r = r' :=
  opcodeMap_disjoint r hr r' hr' (OpcodeRow.value_and_mask_eq h h')

/-- A row's value, where every operand is zero, is the word of an instruction of that row. -/
theorem opcodeMap_decode_value :
    ∀ r ∈ opcodeMap, (decode r.value).toOption.map Instr.row = some r := by decide

/-- Every row of the map is an instruction's own. -/
theorem exists_row_eq {r : OpcodeRow} (hr : r ∈ opcodeMap) : ∃ i : Instr, i.row = r := by
  have h := opcodeMap_decode_value r hr
  obtain ⟨i, -, hi⟩ := Option.map_eq_some_iff.1 h
  exact ⟨i, hi⟩

section
variable {w v : Word} {op : Fin 16}

/-- A word that selects a row with mask 0xF000 has the row's family. -/
theorem op_of_selects (h : (OpcodeRow.mk v 0xF000).selects w = true)
    (hv : v.toNat = 4096 * op.val) : (Fields.ofWord w).op = op := by
  rw [OpcodeRow.selects_F000] at h
  exact Fin.ext (by rw [Fields.ofWord_op]; omega)

/-- A word that selects a row with mask 0xF00F has the row's family and `n`. -/
theorem op_n_of_selects {n : Count} (h : (OpcodeRow.mk v 0xF00F).selects w = true)
    (hv : v.toNat = 4096 * op.val + n.val) :
    (Fields.ofWord w).op = op ∧ (Fields.ofWord w).n = n := by
  rw [OpcodeRow.selects_F00F] at h
  refine ⟨Fin.ext ?_, Fin.ext ?_⟩
  · rw [Fields.ofWord_op]; omega
  · rw [Fields.ofWord_n]; omega

/-- A word that selects a row with mask 0xF0FF has the row's family and `kk`. -/
theorem op_kk_of_selects {kk : Byte} (h : (OpcodeRow.mk v 0xF0FF).selects w = true)
    (hv : v.toNat = 4096 * op.val + kk.toNat) :
    (Fields.ofWord w).op = op ∧ (Fields.ofWord w).kk = kk := by
  have := kk.isLt
  rw [OpcodeRow.selects_F0FF] at h
  refine ⟨Fin.ext ?_, BitVec.eq_of_toNat_eq ?_⟩
  · rw [Fields.ofWord_op]; omega
  · rw [Fields.ofWord_kk]; omega

/-- A word that selects a row of family and `n` packs them with its own registers. -/
theorem packXYN_of_selects {n : Count} (h : (OpcodeRow.mk v 0xF00F).selects w = true)
    (hv : v.toNat = 4096 * op.val + n.val) :
    packXYN op (Fields.ofWord w).x (Fields.ofWord w).y n = w :=
  have ⟨hop, hn⟩ := op_n_of_selects h hv
  packXYN_ofWord hop hn

/-- A word that selects a row of family and `kk` packs them with its own register. -/
theorem packXKK_of_selects {kk : Byte} (h : (OpcodeRow.mk v 0xF0FF).selects w = true)
    (hv : v.toNat = 4096 * op.val + kk.toNat) : packXKK op (Fields.ofWord w).x kk = w :=
  have ⟨hop, hkk⟩ := op_kk_of_selects h hv
  packXKK_ofWord hop hkk

/-- A word that selects the row of an instruction is the word of one of that row. -/
theorem exists_encode_of_selects {i : Instr} (h : i.row.selects w = true) :
    ∃ j, encode j = w := by
  cases i with
  | cls => exact ⟨.cls, ((OpcodeRow.selects_FFFF ..).1 h).symm⟩
  | ret => exact ⟨.ret, ((OpcodeRow.selects_FFFF ..).1 h).symm⟩
  | exit => exact ⟨.exit, ((OpcodeRow.selects_FFFF ..).1 h).symm⟩
  | jp => exact ⟨.jp _, packNNN_ofWord (op_of_selects h rfl) rfl⟩
  | call => exact ⟨.call _, packNNN_ofWord (op_of_selects h rfl) rfl⟩
  | seImm => exact ⟨.seImm _ _, packXKK_ofWord (op_of_selects h rfl) rfl⟩
  | sneImm => exact ⟨.sneImm _ _, packXKK_ofWord (op_of_selects h rfl) rfl⟩
  | seReg => exact ⟨.seReg _ _, packXYN_of_selects h rfl⟩
  | ldImm => exact ⟨.ldImm _ _, packXKK_ofWord (op_of_selects h rfl) rfl⟩
  | addImm => exact ⟨.addImm _ _, packXKK_ofWord (op_of_selects h rfl) rfl⟩
  | ldReg => exact ⟨.ldReg _ _, packXYN_of_selects h rfl⟩
  | orReg => exact ⟨.orReg _ _, packXYN_of_selects h rfl⟩
  | andReg => exact ⟨.andReg _ _, packXYN_of_selects h rfl⟩
  | xorReg => exact ⟨.xorReg _ _, packXYN_of_selects h rfl⟩
  | addReg => exact ⟨.addReg _ _, packXYN_of_selects h rfl⟩
  | subReg => exact ⟨.subReg _ _, packXYN_of_selects h rfl⟩
  | shr => exact ⟨.shr _ _, packXYN_of_selects h rfl⟩
  | subnReg => exact ⟨.subnReg _ _, packXYN_of_selects h rfl⟩
  | shl => exact ⟨.shl _ _, packXYN_of_selects h rfl⟩
  | sneReg => exact ⟨.sneReg _ _, packXYN_of_selects h rfl⟩
  | ldI => exact ⟨.ldI _, packNNN_ofWord (op_of_selects h rfl) rfl⟩
  | jpV0 => exact ⟨.jpV0 _, packNNN_ofWord (op_of_selects h rfl) rfl⟩
  | rnd => exact ⟨.rnd _ _, packXKK_ofWord (op_of_selects h rfl) rfl⟩
  | drw => exact ⟨.drw _ _ _, packXYN_ofWord (op_of_selects h rfl) rfl⟩
  | addI => exact ⟨.addI _, packXKK_of_selects h rfl⟩
  | storeRegs => exact ⟨.storeRegs _, packXKK_of_selects h rfl⟩
  | loadRegs => exact ⟨.loadRegs _, packXKK_of_selects h rfl⟩

/-- A decoded word selects its instruction's row. -/
theorem row_selects_of_decode {i : Instr} (h : decode w = .ok i) : i.row.selects w = true := by
  obtain ⟨-, hsel⟩ := encodedRow_statement i
  rwa [encode_of_decode h] at hsel

end

/-- Settles O3: a decoded word selects its instruction's row, no other row of the map shares a word
with it, and every word that selects a row is an instruction's word. -/
theorem legalExactlyWhenOneRowSelects : Obligations.LegalExactlyWhenOneRowSelects := by
  refine ⟨fun w => ⟨?_, ?_⟩, fun w i hd => ⟨i.row_mem_opcodeMap, fun r hr => ⟨fun hsel => ?_, ?_⟩⟩⟩
  · rintro ⟨i, hd⟩
    exact ⟨i.row, i.row_mem_opcodeMap, row_selects_of_decode hd⟩
  · rintro ⟨r, hr, hsel⟩
    obtain ⟨i, rfl⟩ := exists_row_eq hr
    exact legal_iff_exists_encode.2 (exists_encode_of_selects hsel)
  · exact OpcodeRow.eq_of_selects hr i.row_mem_opcodeMap hsel (row_selects_of_decode hd)
  · rintro rfl
    exact row_selects_of_decode hd

/-! ## The families -/

/-- The secondary dispatch of family 8 turns away exactly the `n` outside R96's list. -/
theorem exists_dispatch8_iff (f : Fields) :
    (∃ i, dispatch8 f = .ok i) ↔ f.n ∈ [0, 1, 2, 3, 4, 5, 6, 7, 0xE] := by
  unfold dispatch8
  split_ifs <;> simp [*]

/-- The secondary dispatch of family F turns away exactly the `kk` outside R97's list. -/
theorem exists_dispatchF_iff (f : Fields) :
    (∃ i, dispatchF f = .ok i) ↔ f.kk ∈ [0x1E, 0x55, 0x65] := by
  unfold dispatchF
  split_ifs <;> simp_all

section
variable {w : Word}

theorem legal_iff_of_op8 (hop : (Fields.ofWord w).op = 8) :
    Legal w ↔ (Fields.ofWord w).n ∈ [0, 1, 2, 3, 4, 5, 6, 7, 0xE] := by
  simp only [Legal, decode, dispatch, hop, exists_dispatch8_iff]

theorem legal_iff_of_opF (hop : (Fields.ofWord w).op = 0xF) :
    Legal w ↔ (Fields.ofWord w).kk ∈ [0x1E, 0x55, 0x65] := by
  simp only [Legal, decode, dispatch, hop, exists_dispatchF_iff]

theorem not_legal_of_opE (hop : (Fields.ofWord w).op = 0xE) : ¬ Legal w := by
  simp [Legal, decode, dispatch, hop]

/-- A word that decodes to no instruction faults when it is fetched (R94, R101). -/
theorem faultsAsUnknown_of_not_legal (h : ¬ Legal w) : FaultsAsUnknown w := by
  intro s hms hf
  cases hd : decode w with
  | error e => exact step_of_decode_error hms hf hd
  | ok i => exact absurd ⟨i, hd⟩ h

/-- Where a condition is exactly legality, it holds of legal words and the others fault. -/
theorem legal_and_faults {p : Prop} (h : Legal w ↔ p) :
    (p → Legal w) ∧ (¬ p → FaultsAsUnknown w) :=
  ⟨h.2, fun hp => faultsAsUnknown_of_not_legal (mt h.1 hp)⟩

end

/-- Settles O4: families 8, F and E by their secondary dispatch; a word of a plain family is the
word of the instruction with its fields; and SHR and SHL do not read `y`. -/
theorem familyLegality : Obligations.FamilyLegality := by
  refine ⟨fun w hop => legal_and_faults (legal_iff_of_op8 hop),
    fun w hop => legal_and_faults (legal_iff_of_opF hop),
    fun w hop => faultsAsUnknown_of_not_legal (not_legal_of_opE hop),
    fun w f hf => ?_, fun x y y' s => ⟨rfl, rfl⟩⟩
  subst hf
  exact ⟨fun hop => decode_of_encode_eq (packNNN_ofWord hop rfl),
    fun hop => decode_of_encode_eq (packNNN_ofWord hop rfl),
    fun hop => decode_of_encode_eq (packXKK_ofWord hop rfl),
    fun hop => decode_of_encode_eq (packXKK_ofWord hop rfl),
    fun hop => decode_of_encode_eq (packXKK_ofWord hop rfl),
    fun hop => decode_of_encode_eq (packXKK_ofWord hop rfl),
    fun hop => decode_of_encode_eq (packNNN_ofWord hop rfl),
    fun hop => decode_of_encode_eq (packNNN_ofWord hop rfl),
    fun hop => decode_of_encode_eq (packXKK_ofWord hop rfl),
    fun hop => decode_of_encode_eq (packXYN_ofWord hop rfl)⟩

/-- Settles O1: the decoder runs on each word. -/
theorem specWordsDecode : Obligations.SpecWordsDecode := by
  unfold Obligations.SpecWordsDecode
  decide

end Sys2Proof

/-! PROOFS. Family 0: clear display, return and exit (R121 to R123), and the return after a call (R122,
R132). -/

namespace Sys2Proof.Machine

open Sys2Proof

/-- A state keeps its own frame, and so, by unfolding, does an update of any field outside it. -/
theorem State.onlyRegs_refl (s : State) : s.OnlyRegs [] s :=
  ⟨fun _ _ => rfl, ⟨rfl, rfl⟩, ⟨fun _ _ => rfl, rfl⟩, ⟨rfl, rfl⟩, ⟨rfl, rfl, rfl⟩,
    ⟨rfl, fun _ => rfl⟩, ⟨rfl, rfl⟩⟩

section
variable {s t : State}

/-- RET with SP = 0 underflows (R122). -/
theorem exec_ret_of_empty (h : s.sp.val = 0) :
    exec .ret s = .next (s.enterFault .stackUnderflow) := by
  obtain ⟨t, ht⟩ := (exec_effect .ret s).exists_next
  obtain ⟨-, rfl⟩ | ⟨hne, -⟩ := exec_ret_cases ht
  · exact ht
  · exact absurd h hne

/-- RET with SP above 0 pops and resumes after the call (R122). -/
theorem exec_ret_of_nonempty (h : s.sp.val ≠ 0) :
    exec .ret s = .next
      (State.setPc { s with sp := ⟨s.sp.val - 1, by omega⟩ } (s.stk[s.sp.val - 1] + 2)) := by
  obtain ⟨t, ht⟩ := (exec_effect .ret s).exists_next
  obtain ⟨hzero, -⟩ | ⟨-, rfl⟩ := exec_ret_cases ht
  · exact absurd hzero h
  · exact ht

/-- The return undoes the call's push: what is left of both is the stored return address and PC on
the word after the call (R122, R132). -/
theorem exec_ret_of_exec_call {nnn : Addr} (hsp : s.sp.val < 16)
    (h : exec (.call nnn) s = .next t) :
    exec .ret t = .next
      (State.setPc { s with stk := s.stk.set s.sp.val s.pc } (s.pc + 2)) := by
  obtain ⟨hfull, -⟩ | ⟨_, rfl⟩ := exec_call_cases h
  · omega
  · rw [exec_ret_of_nonempty (Nat.succ_ne_zero s.sp.val)]
    have hpop : (s.stk.set s.sp.val s.pc)[s.sp.val] = s.pc := Vector.getElem_set_self hsp
    simp only [State.setPc, Nat.add_sub_cancel, hpop]

end

/-- Settles O19: by the state in which the return leaves the machine. -/
theorem callThenReturnResumes : Obligations.CallThenReturnResumes := by
  intro nnn s hsp
  obtain ⟨t, hcall⟩ := (exec_effect (.call nnn) s).exists_next
  obtain ⟨hregs, -, hdisplay, htimers, hcontrol, hmem, -⟩ := s.onlyRegs_refl
  have hcells : ∀ (k : Nat) (hk : k < 16), k ≠ s.sp.val →
      (s.stk.set s.sp.val s.pc)[k] = s.stk[k] :=
    fun k hk hne => Vector.getElem_set_ne hsp hk (Ne.symm hne)
  exact ⟨t, _, hcall, exec_ret_of_exec_call hsp hcall, BitVec.toNat_add s.pc 2, rfl, hcells, rfl,
    hregs, hdisplay, htimers, hcontrol, hmem⟩

/-- Settles O13: the clear display has no pixel set, and the rest is CLS's frame. -/
theorem clearDisplay : Obligations.ClearDisplay := by
  intro s
  obtain ⟨hregs, hstack, -, htimers, hcontrol, hmem, hdraws⟩ := s.onlyRegs_refl
  exact ⟨_, rfl, Display.pixel_clear, rfl, State.advance_pc_toNat _, rfl, hregs, hstack, htimers,
    hcontrol, hmem, hdraws⟩

/-- Settles O14: by whether the stack is empty. -/
theorem returnPopsAndAddsTwo : Obligations.ReturnPopsAndAddsTwo := by
  refine fun s => ⟨exec_ret_of_empty, fun hne => ?_⟩
  obtain ⟨hregs, -, hdisplay, htimers, hcontrol, hmem, hdraws⟩ := s.onlyRegs_refl
  have hlt : s.sp.val - 1 < 16 := by omega
  exact ⟨_, hlt, exec_ret_of_nonempty hne, Nat.sub_one_add_one hne,
    BitVec.toNat_add s.stk[s.sp.val - 1] 2, rfl, rfl, hregs, hdisplay, htimers, hcontrol, hmem,
    hdraws⟩

/-- Settles O15: only MS is outside EXIT's frame. -/
theorem exitHalts : Obligations.ExitHalts := by
  intro s
  obtain ⟨hregs, hstack, hdisplay, htimers, -, hmem, hdraws⟩ := s.onlyRegs_refl
  exact ⟨_, rfl, rfl, rfl, rfl, rfl, rfl, hregs, hstack, hdisplay, htimers, hmem, hdraws⟩

end Sys2Proof.Machine

/-! PROOFS. Jump, call, conditional skips and indexed jump (R131 to R137). -/

namespace Sys2Proof.Machine

open Sys2Proof

/-- PC is outside the frame (R12). -/
theorem State.onlyRegs_setPc (s : State) (w : Word) : s.OnlyRegs [] (s.setPc w) := s.onlyRegs_refl

/-- A skip moves PC alone, whichever way the comparison goes (R133). -/
theorem State.onlyRegs_skipIf (s : State) (c : Bool) : s.OnlyRegs [] (s.skipIf c) := by
  cases c with
  | true => exact s.onlyRegs_setPc (s.pc + 4)
  | false => exact s.onlyRegs_setPc (s.pc + 2)

/-- Where the skips on equality go (R133, R135). -/
theorem State.skipIf_beq_pc_toNat (s : State) (a b : Byte) :
    (s.skipIf (a == b)).pc.toNat =
      (s.pc.toNat + if a.toNat = b.toNat then 4 else 2) % 65536 := by
  rw [State.skipIf_pc, BitVec.toNat_add]
  by_cases h : a = b
  · simp [h]
  · simp [h, BitVec.toNat_inj]

/-- Where the skips on inequality go (R134, R136). -/
theorem State.skipIf_bne_pc_toNat (s : State) (a b : Byte) :
    (s.skipIf (a != b)).pc.toNat =
      (s.pc.toNat + if a.toNat = b.toNat then 2 else 4) % 65536 := by
  rw [State.skipIf_pc, BitVec.toNat_add]
  by_cases h : a = b
  · simp [h]
  · simp [h, BitVec.toNat_inj]

/-- Settles O20: each skip is one `skipIf`, on equality or on inequality. -/
theorem skipsCompareAndAdvance : Obligations.SkipsCompareAndAdvance := fun x y kk s =>
  ⟨⟨_, rfl, s.skipIf_i _, s.onlyRegs_skipIf _, s.skipIf_beq_pc_toNat (s.reg x) kk⟩,
    ⟨_, rfl, s.skipIf_i _, s.onlyRegs_skipIf _, s.skipIf_bne_pc_toNat (s.reg x) kk⟩,
    ⟨_, rfl, s.skipIf_i _, s.onlyRegs_skipIf _, s.skipIf_beq_pc_toNat (s.reg x) (s.reg y)⟩,
    ⟨_, rfl, s.skipIf_i _, s.onlyRegs_skipIf _, s.skipIf_bne_pc_toNat (s.reg x) (s.reg y)⟩⟩

/-- Settles O16: the target is `nnn` widened by zeros. -/
theorem jumpSetsPc : Obligations.JumpSetsPc := fun nnn s =>
  ⟨_, rfl, Addr.toNat_zext16 nnn, rfl, s.onlyRegs_setPc nnn.zext16⟩

/-- The indexed jump's sum is at most 0xFFF + 0xFF, so 16 bits hold it in full (R137). -/
theorem Addr.toNat_zext16_add_zext16 (nnn : Addr) (b : Byte) :
    (Addr.zext16 nnn + Byte.zext16 b).toNat = nnn.toNat + b.toNat := by
  rw [BitVec.toNat_add, Addr.toNat_zext16, Byte.toNat_zext16]
  omega

/-- Settles O17: the sum fits PC. -/
theorem jumpPlusV0KeepsFullSum : Obligations.JumpPlusV0KeepsFullSum := fun nnn s =>
  ⟨_, rfl, Addr.toNat_zext16_add_zext16 nnn (s.reg 0), rfl, s.onlyRegs_setPc _⟩

section
variable {s : State}

/-- CALL with SP = 16 overflows (R132). -/
theorem exec_call_of_full (nnn : Addr) (h : s.sp.val = 16) :
    exec (.call nnn) s = .next (s.enterFault .stackOverflow) := by
  obtain ⟨t, ht⟩ := (exec_effect (.call nnn) s).exists_next
  obtain ⟨-, rfl⟩ | ⟨hlt, -⟩ := exec_call_cases ht
  · exact ht
  · omega

/-- CALL with SP below 16 pushes its own address and jumps (R132). -/
theorem exec_call_of_room (nnn : Addr) (h : s.sp.val < 16) :
    exec (.call nnn) s = .next
      (State.setPc { s with stk := s.stk.set s.sp.val s.pc, sp := ⟨s.sp.val + 1, by omega⟩ }
        nnn.zext16) := by
  obtain ⟨t, ht⟩ := (exec_effect (.call nnn) s).exists_next
  obtain ⟨hfull, -⟩ | ⟨_, rfl⟩ := exec_call_cases ht
  · omega
  · exact ht

end

/-- Settles O18: by whether the stack has room. -/
theorem callPushesOwnAddress : Obligations.CallPushesOwnAddress := by
  refine fun nnn s => ⟨exec_call_of_full nnn, fun hroom => ?_⟩
  obtain ⟨hregs, -, hdisplay, htimers, hcontrol, hmem, hdraws⟩ := s.onlyRegs_refl
  have hcells : ∀ (k : Nat) (hk : k < 16),
      (s.stk.set s.sp.val s.pc)[k] = if k = s.sp.val then s.pc else s.stk[k] := fun k hk => by
    rw [Vector.getElem_set]
    simp only [eq_comm]
  exact ⟨_, exec_call_of_room nnn hroom, rfl, Addr.toNat_zext16 nnn, hcells, rfl, hregs, hdisplay,
    htimers, hcontrol, hmem, hdraws⟩

end Sys2Proof.Machine

/-! PROOFS. Immediate loads, immediate add and random (R151 to R154). -/

namespace Sys2Proof.Machine

open Sys2Proof

theorem State.reg_setReg_same (s : State) (x : Reg) (b : Byte) : (s.setReg x b).reg x = b :=
  (s.reg_setReg x x b).trans (if_pos rfl)

/-- A register write reaches no other register (R12). -/
theorem State.sameRegsBut_setReg (s : State) (x : Reg) (b : Byte) :
    s.SameRegsBut [x] (s.setReg x b) := fun r hr =>
  (s.reg_setReg x r b).trans (if_neg (List.mem_singleton.not.1 hr))

/-- A register write changes that register alone (R12). -/
theorem State.onlyRegs_setReg (s : State) (x : Reg) (b : Byte) : s.OnlyRegs [x] (s.setReg x b) := by
  obtain ⟨-, hrest⟩ := s.onlyRegs_refl
  exact ⟨s.sameRegsBut_setReg x b, hrest⟩

/-- Settles O21: a register write or a write of I, and the advance. -/
theorem immediatesLoadAndAdd : Obligations.ImmediatesLoadAndAdd := fun x kk nnn s =>
  have hsum : ((s.setReg x (s.reg x + kk)).reg x).toNat = ((s.reg x).toNat + kk.toNat) % 256 := by
    rw [State.reg_setReg_same, BitVec.toNat_add]
  ⟨⟨_, rfl, s.reg_setReg_same x kk, State.advance_pc_toNat _, rfl, s.onlyRegs_setReg x kk⟩,
    ⟨_, rfl, hsum, State.advance_pc_toNat _, rfl, s.onlyRegs_setReg x _⟩,
    ⟨_, rfl, Addr.toNat_zext16 nnn, State.advance_pc_toNat _, s.onlyRegs_refl⟩⟩

/-- The byte RND draws: the supplied one, or the free value where none is supplied (R154, log
entries 1 and 2). -/
theorem State.randomByte_eq {s : State} {r : Byte}
    (h : s.entropy = some r ∨ (s.entropy = none ∧ r = Config.randomByte s.draws)) :
    s.randomByte = r := by
  obtain hsome | ⟨hnone, rfl⟩ := h
  · rw [State.randomByte, hsome, Option.getD_some]
  · rw [State.randomByte, hnone, Option.getD_none]

/-- Settles O22: the byte drawn is `r`, and RND is a register write that uses the draw up. -/
theorem randomByteIsMasked : Obligations.RandomByteIsMasked := by
  intro x kk r s hr
  have hexec : exec (.rnd x kk) s = .next (s.setReg x (r &&& kk)).useDraw.advance := by
    rw [← State.randomByte_eq hr]
    rfl
  have hbits : ∀ k < 8, ((s.setReg x (r &&& kk)).reg x).getLsbD k =
      (r.getLsbD k && kk.getLsbD k) := fun k _ => by
    rw [State.reg_setReg_same, BitVec.getLsbD_and]
  obtain ⟨hregs, hstack, hdisplay, htimers, hcontrol, hmem, -⟩ := s.onlyRegs_setReg x (r &&& kk)
  exact ⟨_, hexec, hbits, State.advance_pc_toNat _, rfl, hregs, hstack, hdisplay, htimers, hcontrol,
    hmem, rfl, rfl⟩

end Sys2Proof.Machine

/-! PROOFS. The ALU: copy and logic (R161 to R164), the flag-writing instructions into a register
other than VF (R160, R165 to R169, R171), and into VF (R171). -/

namespace Sys2Proof.Machine

open Sys2Proof

/-! ## Copy and logic -/

/-- Settles O24: each instruction is one register write and the advance. -/
theorem copyAndLogic : Obligations.CopyAndLogic := fun x y s =>
  have hbit (b : Byte) (k : Nat) : ((s.setReg x b).reg x).getLsbD k = b.getLsbD k := by
    rw [State.reg_setReg_same]
  ⟨⟨_, rfl, s.reg_setReg_same x _, State.advance_pc_toNat _, rfl, s.onlyRegs_setReg x _⟩,
    ⟨_, rfl, fun k _ => (hbit _ k).trans BitVec.getLsbD_or, State.advance_pc_toNat _, rfl,
      s.onlyRegs_setReg x _⟩,
    ⟨_, rfl, fun k _ => (hbit _ k).trans BitVec.getLsbD_and, State.advance_pc_toNat _, rfl,
      s.onlyRegs_setReg x _⟩,
    ⟨_, rfl, fun k _ => (hbit _ k).trans BitVec.getLsbD_xor, State.advance_pc_toNat _, rfl,
      s.onlyRegs_setReg x _⟩⟩

/-! ## The flags and the results as numbers -/

section
variable (a b : Byte)

theorem flagByte_carryOut_toNat :
    (flagByte (carryOut a b)).toNat = if a.toNat + b.toNat > 255 then 1 else 0 := by
  simp only [flagByte_toNat, carryOut, decide_eq_true_eq]

theorem flagByte_noBorrow_toNat :
    (flagByte (noBorrow a b)).toNat = if a.toNat ≥ b.toNat then 1 else 0 := by
  simp only [flagByte_toNat, noBorrow, decide_eq_true_eq]

/-- The bit shifted out at the bottom is the remainder by 2 (R160, R167). -/
theorem flagByte_shiftedOutLow_toNat : (flagByte (shiftedOutLow a)).toNat = a.toNat % 2 := by
  rw [flagByte_toNat, shiftedOutLow, BitVec.getLsbD, Nat.testBit_zero]
  obtain h | h := Nat.mod_two_eq_zero_or_one a.toNat
  · simp [h]
  · simp [h]

/-- The bit shifted out at the top is the quotient by 128, a byte being below 256 (R160, R169). -/
theorem flagByte_shiftedOutHigh_toNat : (flagByte (shiftedOutHigh a)).toNat = a.toNat / 128 := by
  have hlt : a.toNat / 128 < 2 := by omega
  rw [flagByte_toNat, shiftedOutHigh, BitVec.getLsbD, Nat.testBit_eq_decide_div_mod_eq,
    Nat.mod_eq_of_lt hlt]
  obtain h | h : a.toNat / 128 = 0 ∨ a.toNat / 128 = 1 := by omega
  · simp [h]
  · simp [h]

theorem shiftRightOne_toNat : (shiftRightOne a).toNat = a.toNat / 2 := by
  rw [shiftRightOne, BitVec.toNat_ushiftRight, Nat.shiftRight_eq_div_pow, pow_one]

theorem shiftLeftOne_toNat : (shiftLeftOne a).toNat = a.toNat * 2 % 256 := by
  rw [shiftLeftOne, BitVec.toNat_shiftLeft, Nat.shiftLeft_eq, pow_one]

/-- The difference modulo 256, in the order the statements write it (R166, R168). -/
theorem Byte.toNat_sub : (a - b).toNat = (a.toNat + 256 - b.toNat) % 256 := by
  rw [BitVec.toNat_sub]
  omega

/-- Equal operands of a subtraction: the result is 0 and nothing is borrowed (R166, R168). -/
theorem sub_and_noBorrow_of_toNat_eq (h : a.toNat = b.toNat) :
    (a - b).toNat = 0 ∧ (flagByte (noBorrow a b)).toNat = 1 := by
  obtain rfl := BitVec.eq_of_toNat_eq h
  rw [BitVec.sub_self, flagByte_noBorrow_toNat, if_pos le_rfl]
  exact ⟨rfl, rfl⟩

end

/-! ## The two writes of a flag-writing instruction -/

section
variable (s : State) (g : Bool) (x : Reg) (b : Byte)

/-- The result is written last, so it is what the destination holds (R171). -/
theorem State.reg_setFlagThenReg_same : (s.setFlagThenReg g x b).reg x = b :=
  State.reg_setReg_same _ x b

/-- With another destination, VF keeps the flag, whichever register was the source (R171, log
entry 13). -/
theorem State.vf_setFlagThenReg (hx : x ≠ 15) : (s.setFlagThenReg g x b).vf = flagByte g := by
  rw [State.vf, State.reg_setFlagThenReg, if_neg (Ne.symm hx), if_pos rfl]

/-- With VF as the destination the result overwrites the flag, and what is left is one register
write (R171, D9, log entry 13). -/
theorem State.setFlagThenReg_vf : s.setFlagThenReg g 15 b = s.setReg 15 b := by
  simp only [State.setFlagThenReg, State.setReg, Vector.set_set]

/-- A flag-writing instruction changes its destination and VF alone (R12). -/
theorem State.onlyRegs_setFlagThenReg : s.OnlyRegs [x, 15] (s.setFlagThenReg g x b) := by
  obtain ⟨-, hrest⟩ := s.onlyRegs_refl
  refine ⟨fun r hr => ?_, hrest⟩
  obtain ⟨hrx, hrf⟩ : r ≠ x ∧ r ≠ 15 := by simpa using hr
  rw [State.reg_setFlagThenReg, if_neg hrx, if_neg hrf]

end

/-! ## The instructions -/

/-- Settles O25: each instruction is one `setFlagThenReg`, so VF and `V[x]` hold the flag and the
result, and the rest is arithmetic of bytes. -/
theorem flagArithmeticConventions : Obligations.FlagArithmeticConventions := by
  intro x y s hx
  have hreg (g : Bool) (b : Byte) := congrArg BitVec.toNat (s.reg_setFlagThenReg_same g x b)
  have hvf (g : Bool) (b : Byte) := congrArg BitVec.toNat (s.vf_setFlagThenReg g x b hx)
  have hequal (a b : Byte) (h : a.toNat = b.toNat) :
      ((s.setFlagThenReg (noBorrow a b) x (a - b)).reg x).toNat = 0 ∧
      (s.setFlagThenReg (noBorrow a b) x (a - b)).vf.toNat = 1 := by
    rw [hreg, hvf]
    exact sub_and_noBorrow_of_toNat_eq a b h
  exact
    ⟨⟨_, rfl, (hreg _ _).trans (BitVec.toNat_add _ _),
        (hvf _ _).trans (flagByte_carryOut_toNat _ _),
        State.advance_pc_toNat _, rfl, s.onlyRegs_setFlagThenReg _ x _⟩,
      ⟨_, rfl, (hreg _ _).trans (Byte.toNat_sub _ _),
        (hvf _ _).trans (flagByte_noBorrow_toNat _ _), hequal _ _,
        State.advance_pc_toNat _, rfl, s.onlyRegs_setFlagThenReg _ x _⟩,
      ⟨_, rfl, (hreg _ _).trans (shiftRightOne_toNat _),
        (hvf _ _).trans (flagByte_shiftedOutLow_toNat _),
        State.advance_pc_toNat _, rfl, s.onlyRegs_setFlagThenReg _ x _⟩,
      ⟨_, rfl, (hreg _ _).trans (Byte.toNat_sub _ _),
        (hvf _ _).trans (flagByte_noBorrow_toNat _ _), fun h => hequal _ _ h.symm,
        State.advance_pc_toNat _, rfl, s.onlyRegs_setFlagThenReg _ x _⟩,
      ⟨_, rfl, (hreg _ _).trans (shiftLeftOne_toNat _),
        (hvf _ _).trans (flagByte_shiftedOutHigh_toNat _),
        State.advance_pc_toNat _, rfl, s.onlyRegs_setFlagThenReg _ x _⟩⟩

/-- Settles O26: each instruction leaves one write of VF, the result of the old operands. -/
theorem flagArithmeticIntoVF : Obligations.FlagArithmeticIntoVF := by
  intro y s
  have hvf (g : Bool) (b : Byte) := congrArg BitVec.toNat (s.reg_setFlagThenReg_same g 15 b)
  have honly (g : Bool) (b : Byte) : s.OnlyRegs [15] (s.setFlagThenReg g 15 b) := by
    rw [State.setFlagThenReg_vf]
    exact s.onlyRegs_setReg 15 b
  exact
    ⟨⟨_, rfl, (hvf _ _).trans (BitVec.toNat_add _ _), State.advance_pc_toNat _, rfl, honly _ _⟩,
      ⟨_, rfl, (hvf _ _).trans (Byte.toNat_sub _ _), State.advance_pc_toNat _, rfl, honly _ _⟩,
      ⟨_, rfl, (hvf _ _).trans (shiftRightOne_toNat _), State.advance_pc_toNat _, rfl, honly _ _⟩,
      ⟨_, rfl, (hvf _ _).trans (Byte.toNat_sub _ _), State.advance_pc_toNat _, rfl, honly _ _⟩,
      ⟨_, rfl, (hvf _ _).trans (shiftLeftOne_toNat _), State.advance_pc_toNat _, rfl, honly _ _⟩⟩

end Sys2Proof.Machine

/-! PROOFS. The sprite draw (R181 to R186). -/

namespace Sys2Proof.Machine

open Sys2Proof

/-- Each byte of a range read is the byte at its address (R63). -/
theorem Memory.read_of_readRange {m : Memory} {a n : Nat} {bs : List Byte}
    (h : m.readRange a n = some bs) {k : Nat} (hk : k < bs.length) :
    m.read (a + k) = some bs[k] := by
  have hkn : k < n := Memory.length_of_readRange h ▸ hk
  rw [Memory.readRange_eq] at h
  split at h
  · rename_i hrange
    cases h
    have hle : a + k ≤ 0xFFF := by simp only [RangeOk] at hrange; omega
    simp only [m.read_of_le hle, List.getElem_map, List.getElem_range]
  · cases h

/-- VF tells whether a draw onto a display met a lit pixel (R183). -/
theorem Blit.Toggles.flagByte_collision {P : Fin 64 → Fin 32 → Prop} {d : Display} {b : Blit}
    (h : Blit.Toggles P ⟨d, false⟩ b) :
    ((∃ cx cy, P cx cy ∧ d.pixel cx cy = true) → (flagByte b.collision).toNat = 1) ∧
    ((¬ ∃ cx cy, P cx cy ∧ d.pixel cx cy = true) → (flagByte b.collision).toNat = 0) := by
  obtain ⟨-, -, hcollision⟩ := h
  have hiff : b.collision = true ↔ ∃ cx cy, P cx cy ∧ d.pixel cx cy = true := by
    simpa using hcollision
  rw [flagByte_toNat, ← hiff]
  exact ⟨fun hc => if_pos hc, fun hc => if_neg hc⟩

section
variable {x y : Reg} {n : Count} {s t : State} {sprite : List Byte}

/-- The pixels DRW reaches are those of the sprite it has read (R181, R182). -/
theorem State.spriteHits_iff_drawHits (hr : s.mem.readRange (s.dataAddr 0) n.val = some sprite)
    (cx : Fin 64) (cy : Fin 32) :
    SpriteHits (s.reg x) (s.reg y) sprite cx cy ↔ s.DrawHits x y n cx cy := by
  have hlen := Memory.length_of_readRange hr
  have hread (r : Nat) (h : r < sprite.length) : s.mem.read (s.i.toNat + r) = some sprite[r] :=
    Memory.read_of_readRange hr h
  constructor
  · rintro ⟨r, h, c, hc, hpixel⟩
    exact ⟨r, hlen ▸ h, c, hc, _, hread r h, hpixel⟩
  · rintro ⟨r, h, c, hc, b, hb, hpixel⟩
    have h' : r < sprite.length := hlen ▸ h
    obtain rfl : sprite[r] = b := Option.some_inj.1 ((hread r h').symm.trans hb)
    exact ⟨r, h', c, hc, hpixel⟩

/-- Where DRW reaches depends on I, memory and its two coordinates only (R181). -/
theorem State.drawHits_congr (hi : t.i = s.i) (hmem : s.SameMem t) (hx : t.reg x = s.reg x)
    (hy : t.reg y = s.reg y) (cx : Fin 64) (cy : Fin 32) :
    t.DrawHits x y n cx cy ↔ s.DrawHits x y n cx cy := by
  obtain ⟨-, hread⟩ := hmem
  simp only [State.DrawHits, hi, hread, hx, hy]

/-- A sprite inside memory is drawn: the blit toggles the pixels DRW reaches, and VF is its collision
(R181, R183). -/
theorem exec_drw_in_range (x y : Reg) (h : n.val = 0 ∨ s.i.toNat + n.val - 1 ≤ 0xFFF) :
    ∃ b, Blit.Toggles (s.DrawHits x y n) ⟨s.display, false⟩ b ∧
      exec (.drw x y n) s =
        .next ((s.setReg Reg.vf (flagByte b.collision)).showDisplay b.display).advance := by
  obtain ⟨t, ht⟩ := (exec_effect (.drw x y n) s).exists_next
  obtain ⟨hnone, -⟩ | ⟨sprite, hr, rfl⟩ := exec_drw_cases ht
  · have hrange : RangeOk (s.dataAddr 0) n.val := by simp only [RangeOk, State.dataAddr]; omega
    exact absurd hrange ((Memory.readRange_eq_none ..).1 hnone)
  · have hlen : sprite.length ≤ 32 := by rw [Memory.length_of_readRange hr]; omega
    exact ⟨_, (s.display.draw_spec _ _ sprite hlen).congr (State.spriteHits_iff_drawHits hr), ht⟩

end

/-- Settles O27: the blit says which pixels and what flag, and the rest is a write of VF, the redraw
flag and the advance. -/
theorem drawTogglesSpritePixels : Obligations.DrawTogglesSpritePixels := by
  intro x y n s h
  obtain ⟨b, hblit, hexec⟩ := exec_drw_in_range x y h
  obtain ⟨hlit, hunlit⟩ := hblit.flagByte_collision
  obtain ⟨hon, hoff, -⟩ := hblit
  have hvf : (s.setReg Reg.vf (flagByte b.collision)).vf = flagByte b.collision :=
    s.reg_setReg_same Reg.vf _
  obtain ⟨hregs, hstack, -, htimers, hcontrol, hmem, hdraws⟩ :=
    s.onlyRegs_setReg Reg.vf (flagByte b.collision)
  exact ⟨_, hexec, hon, hoff, fun hc => (congrArg BitVec.toNat hvf).trans (hlit hc),
    fun hc => (congrArg BitVec.toNat hvf).trans (hunlit hc), rfl, State.advance_pc_toNat _, rfl,
    hregs, hstack, htimers, hcontrol, hmem, hdraws⟩

/-- Settles O28: both draws reach the same pixels, so each of them is toggled twice, and one that the
first draw lit is met lit by the second. -/
theorem drawTwiceRestoresDisplay : Obligations.DrawTwiceRestoresDisplay := by
  intro x y n s h
  obtain ⟨t, hexec, hon, hoff, -, -, -, -, hi, hregs, -, -, -, hmem, -⟩ :=
    drawTogglesSpritePixels x y n s h
  have hreg (r : Reg) (hr : r ≠ 15) : t.reg r = s.reg r := hregs r (List.mem_singleton.not.2 hr)
  refine ⟨t, hexec, fun ⟨hx, hy⟩ => ⟨hreg x hx, hreg y hy⟩, fun hx hy => ?_⟩
  obtain ⟨u, hexec', hon', hoff', hlit', -⟩ := drawTogglesSpritePixels x y n t (hi ▸ h)
  have hhits (cx : Fin 64) (cy : Fin 32) : t.DrawHits x y n cx cy ↔ s.DrawHits x y n cx cy :=
    State.drawHits_congr hi hmem hx hy cx cy
  refine ⟨u, hexec', fun cx cy => ?_, fun ⟨cx, cy, hdark, hlit⟩ => hlit' ⟨cx, cy, ?_, hlit⟩⟩
  · by_cases hhit : s.DrawHits x y n cx cy
    · rw [hon' cx cy ((hhits cx cy).2 hhit), hon cx cy hhit, Bool.not_not]
    · rw [hoff' cx cy (mt (hhits cx cy).1 hhit), hoff cx cy hhit]
  · by_contra hmiss
    have hsame := hoff cx cy (mt (hhits cx cy).2 hmiss)
    rw [hlit, hdark] at hsame
    cases hsame

end Sys2Proof.Machine

/-! PROOFS. Address-register add, register store and load, and their round trips (R191 to R194). -/

namespace Sys2Proof.Machine

open Sys2Proof

section
variable {x : Reg} {s t : State}

/-- The data address depends on I only (R190). -/
theorem State.dataAddr_congr (hi : t.i = s.i) (k : Nat) : t.dataAddr k = s.dataAddr k :=
  congrArg (·.toNat + k) hi

/-- After a store of `V[0..x]`, an address that is no `I + k` reads as before (R192). -/
theorem State.read_of_writeRange_regsUpTo_ne {m : Memory}
    (hw : s.mem.writeRange (s.dataAddr 0) (s.regsUpTo x) = some m) {a : Nat}
    (ha : ∀ k : Reg, k ≤ x → a ≠ s.dataAddr k.val) : m.read a = s.mem.read a := by
  rw [(Memory.writeRange_spec hw).2]
  refine dif_neg fun ⟨hle, hlt⟩ => ?_
  rw [State.length_regsUpTo] at hlt
  have hk : a - s.dataAddr 0 < 16 := by omega
  have hkx : (⟨a - s.dataAddr 0, hk⟩ : Reg) ≤ x := Nat.le_of_lt_succ hlt
  exact ha _ hkx (by simp only [State.dataAddr] at hle ⊢; omega)

/-- A load that ends inside memory reads its range of bytes, writes the registers and advances
(R68, R193). -/
theorem exec_loadRegs_in_range (h : s.i.toNat + x.val ≤ 0xFFF) :
    ∃ bs, s.mem.readRange (s.dataAddr 0) (x.val + 1) = some bs ∧
      exec (.loadRegs x) s = .next (s.setRegs (loadRegsFrom s.v 0 bs)).advance := by
  obtain ⟨t, ht⟩ := (exec_effect (.loadRegs x) s).exists_next
  obtain ⟨hnone, -⟩ | ⟨bs, hr, rfl⟩ := exec_loadRegs_cases ht
  · have hrange : RangeOk (s.dataAddr 0) (x.val + 1) := by
      simp only [RangeOk, State.dataAddr]; omega
    exact absurd hrange ((Memory.readRange_eq_none ..).1 hnone)
  · exact ⟨bs, hr, ht⟩

/-- After a load of `V[0..x]`, `V[k]` holds the byte at `I + k` (R190, R193). -/
theorem State.read_eq_reg_loadRegsFrom {bs : List Byte}
    (hr : s.mem.readRange (s.dataAddr 0) (x.val + 1) = some bs) {k : Reg} (hk : k ≤ x) :
    s.mem.read (s.dataAddr k.val) = some ((s.setRegs (loadRegsFrom s.v 0 bs)).reg k) := by
  have hlt : k.val < bs.length := by
    rw [Memory.length_of_readRange hr]
    exact Nat.lt_succ_of_le hk
  have hreg : (s.setRegs (loadRegsFrom s.v 0 bs)).reg k = bs[k.val] :=
    (loadRegsFrom_getElem s.v 0 bs k.val k.isLt).trans (dif_pos ⟨Nat.zero_le _, hlt⟩)
  rw [hreg]
  exact Memory.read_of_readRange hr hlt

/-- A load of `V[0..x]` leaves the registers above `x` (R193). -/
theorem State.reg_loadRegsFrom_of_lt {bs : List Byte} (hlen : bs.length = x.val + 1) {k : Reg}
    (hk : x < k) : (s.setRegs (loadRegsFrom s.v 0 bs)).reg k = s.reg k := by
  have hout : ¬ (0 ≤ k.val ∧ k.val - 0 < bs.length) := by
    have : x.val < k.val := hk
    omega
  exact (loadRegsFrom_getElem s.v 0 bs k.val k.isLt).trans (dif_neg hout)

end

/-- Settles O30: the bytes written are `V[0]` to `V[x]`, and the rest is the frame of a memory
write. -/
theorem storeWritesRegisterRange : Obligations.StoreWritesRegisterRange := by
  intro x s h
  obtain ⟨m, hw, hexec⟩ := exec_storeRegs_in_range h
  obtain ⟨hregs, hstack, hdisplay, htimers, hcontrol, -, hdraws⟩ := s.onlyRegs_refl
  obtain ⟨hfont, -⟩ := Memory.writeRange_spec hw
  exact ⟨_, hexec, fun _ hk => State.read_of_writeRange_regsUpTo hw hk,
    fun _ ha => State.read_of_writeRange_regsUpTo_ne hw ha, State.advance_pc_toNat _, rfl, hregs,
    hstack, hdisplay, htimers, hcontrol, hdraws, hfont⟩

/-- Settles O31: the bytes read land in `V[0]` to `V[x]`, and the rest is the frame of a register
write. -/
theorem loadReadsRegisterRange : Obligations.LoadReadsRegisterRange := by
  intro x s h
  obtain ⟨bs, hr, hexec⟩ := exec_loadRegs_in_range h
  obtain ⟨-, hstack, hdisplay, htimers, hcontrol, hmem, hdraws⟩ := s.onlyRegs_refl
  exact ⟨_, hexec, fun _ hk => State.read_eq_reg_loadRegsFrom hr hk,
    fun _ hk => State.reg_loadRegsFrom_of_lt (Memory.length_of_readRange hr) hk,
    State.advance_pc_toNat _, rfl, hstack, hdisplay, htimers, hcontrol, hmem, hdraws⟩

/-- A store then a load of the same range leaves every register as it was (R194). -/
theorem exec_loadRegs_of_exec_storeRegs (x : Reg) (s : State) (h : s.i.toNat + x.val ≤ 0xFFF) :
    ∃ t u, exec (.storeRegs x) s = .next t ∧ exec (.loadRegs x) t = .next u ∧
      s.SameRegsBut [] u := by
  obtain ⟨t, hstore, hstored, -, -, hi, hregs, -⟩ := storeWritesRegisterRange x s h
  obtain ⟨u, hload, hloaded, habove, -⟩ := loadReadsRegisterRange x t (hi ▸ h)
  refine ⟨t, u, hstore, hload, fun k hk => ?_⟩
  obtain hle | hlt := le_or_gt k x
  · have hread := hloaded k hle
    rw [State.dataAddr_congr hi, hstored k hle] at hread
    exact (Option.some_inj.1 hread).symm
  · exact (habove k hlt).trans (hregs k hk)

/-- A load then a store of the same range leaves every byte of memory as it was (R194). -/
theorem exec_storeRegs_of_exec_loadRegs (x : Reg) (s : State) (h : s.i.toNat + x.val ≤ 0xFFF) :
    ∃ t u, exec (.loadRegs x) s = .next t ∧ exec (.storeRegs x) t = .next u ∧ s.SameMem u := by
  obtain ⟨t, hload, hloaded, -, -, hi, -, -, -, -, ⟨hfont, hmem⟩, -⟩ :=
    loadReadsRegisterRange x s h
  obtain ⟨u, hstore, hstored, hothers, -, -, -, -, -, -, -, -, hfont'⟩ :=
    storeWritesRegisterRange x t (hi ▸ h)
  refine ⟨t, u, hload, hstore, hfont'.trans hfont, fun a => ?_⟩
  by_cases ha : ∃ k : Reg, k ≤ x ∧ a = t.dataAddr k.val
  · obtain ⟨k, hk, rfl⟩ := ha
    rw [hstored k hk, State.dataAddr_congr hi, hloaded k hk]
  · exact (hothers a fun k hk e => ha ⟨k, hk, e⟩).trans (hmem a)

/-- Settles O33: by what the store and the load do to the bytes and registers of the range. -/
theorem storeLoadRoundTrip : Obligations.StoreLoadRoundTrip :=
  fun x s h => ⟨exec_loadRegs_of_exec_storeRegs x s h, exec_storeRegs_of_exec_loadRegs x s h⟩

/-- Settles O29: a write of I and the advance; every register is in the frame. -/
theorem addressRegisterAdd : Obligations.AddressRegisterAdd := by
  intro x s
  have hsum : (s.i + (s.reg x).zext16).toNat = (s.i.toNat + (s.reg x).toNat) % 65536 := by
    rw [BitVec.toNat_add, Byte.toNat_zext16]
  exact ⟨_, rfl, hsum, State.advance_pc_toNat _, s.onlyRegs_refl⟩

end Sys2Proof.Machine

/-! PROOFS. Faults: which instruction faults when (R201, R204) and how little fault entry changes
(R202). The timers: TICK (R208), which no STEP can see (R210). -/

namespace Sys2Proof.Machine

open Sys2Proof

/-! ## The instruction's own fault -/

/-- The fault that an instruction's own check raises, if it does (R201, R204). -/
def ownFault (i : Instr) (s : State) : Option Cause :=
  match i with
  | .call _ => if s.sp.val = 16 then some .stackOverflow else none
  | .ret => if s.sp.val = 0 then some .stackUnderflow else none
  | .drw _ _ n =>
    if 1 ≤ n.val ∧ 0xFFF < s.i.toNat + n.val - 1 then some .addressOutOfRange else none
  | .storeRegs x => if 0xFFF < s.i.toNat + x.val then some .addressOutOfRange else none
  | .loadRegs x => if 0xFFF < s.i.toNat + x.val then some .addressOutOfRange else none
  | _ => none

section
variable {i : Instr} {s t : State} {c : Cause}

/-- An instruction whose check fails enters its fault and does nothing else (R202). -/
theorem exec_of_ownFault (h : ownFault i s = some c) : exec i s = .next (s.enterFault c) := by
  cases i with
  | call nnn =>
    obtain ⟨hfull, ⟨⟩⟩ := Option.ite_none_right_eq_some.1 h
    exact exec_call_of_full nnn hfull
  | ret =>
    obtain ⟨hempty, ⟨⟩⟩ := Option.ite_none_right_eq_some.1 h
    exact exec_ret_of_empty hempty
  | drw x y n =>
    obtain ⟨⟨hn, hout⟩, ⟨⟩⟩ := Option.ite_none_right_eq_some.1 h
    exact exec_drw_out_of_range y hn hout
  | storeRegs x =>
    obtain ⟨hout, ⟨⟩⟩ := Option.ite_none_right_eq_some.1 h
    exact exec_storeRegs_out_of_range hout
  | loadRegs x =>
    obtain ⟨hout, ⟨⟩⟩ := Option.ite_none_right_eq_some.1 h
    exact exec_loadRegs_out_of_range hout
  | _ => cases h

/-- An instruction whose check passes leaves MS as it is, EXIT apart (R30, R123). -/
theorem exec_ms_of_no_ownFault (hexit : i ≠ .exit) (hno : ownFault i s = none)
    (h : exec i s = .next t) : t.ms = s.ms := by
  cases i with
  | exit => exact absurd rfl hexit
  | call nnn =>
    have hne : s.sp.val ≠ 16 := by simpa [ownFault] using hno
    cases (exec_call_of_room nnn (s := s) (by omega)).symm.trans h
    rfl
  | ret =>
    have hne : s.sp.val ≠ 0 := by simpa [ownFault] using hno
    cases (exec_ret_of_nonempty hne).symm.trans h
    rfl
  | drw x y n =>
    have hin : ¬ (1 ≤ n.val ∧ 0xFFF < s.i.toNat + n.val - 1) := fun hout => by
      simp [ownFault, hout] at hno
    obtain ⟨b, -, hb⟩ := exec_drw_in_range (n := n) (s := s) x y (by omega)
    cases hb.symm.trans h
    rfl
  | storeRegs x =>
    have hin : s.i.toNat + x.val ≤ 0xFFF := by simpa [ownFault] using hno
    obtain ⟨m, -, hm⟩ := exec_storeRegs_in_range hin
    cases hm.symm.trans h
    rfl
  | loadRegs x =>
    have hin : s.i.toNat + x.val ≤ 0xFFF := by simpa [ownFault] using hno
    obtain ⟨bs, -, hbs⟩ := exec_loadRegs_in_range hin
    cases hbs.symm.trans h
    rfl
  | seImm x kk => cases h; exact s.skipIf_ms _
  | sneImm x kk => cases h; exact s.skipIf_ms _
  | seReg x y => cases h; exact s.skipIf_ms _
  | sneReg x y => cases h; exact s.skipIf_ms _
  | _ => cases h; rfl

/-- From RUNNING, an instruction ends FAULTED only by its own check, in the fault-entry state
(R202). -/
theorem exec_faulted (hrun : s.ms = .running) (h : exec i s = .next t) (hf : t.ms = .faulted) :
    ∃ c, ownFault i s = some c ∧ t = s.enterFault c := by
  cases hown : ownFault i s with
  | some c =>
    cases (exec_of_ownFault hown).symm.trans h
    exact ⟨c, rfl, rfl⟩
  | none =>
    have hms : t.ms ≠ .faulted := by
      by_cases hexit : i = .exit
      · subst hexit; cases h; exact MState.noConfusion
      · rw [exec_ms_of_no_ownFault hexit hown h, hrun]; exact MState.noConfusion
    exact absurd hf hms

/-- From RUNNING, an effect that ends FAULTED has named its cause (R31). -/
theorem ControlEffect.cause_ne_none (h : ControlEffect s t) (hrun : s.ms = .running)
    (hf : t.ms = .faulted) : t.cause ≠ .none := by
  obtain ⟨hms, -⟩ | ⟨hms, -⟩ | ⟨-, hc⟩ := h
  · cases (hf.symm.trans hms).trans hrun
  · cases hf.symm.trans hms
  · exact hc

/-- An instruction other than EXIT faults with its cause where its check fails, and goes on where it
passes (R201). -/
theorem exec_faulted_or_running {p : Prop} [Decidable p]
    (hown : ownFault i s = if p then some c else none) (hexit : i ≠ .exit)
    (hrun : s.ms = .running) (h : exec i s = .next t) :
    if p then t.ms = .faulted ∧ t.cause = c else t.ms = .running := by
  split
  next hp =>
    cases (exec_of_ownFault (hown.trans (if_pos hp))).symm.trans h
    exact ⟨rfl, rfl⟩
  next hp => exact (exec_ms_of_no_ownFault hexit (hown.trans (if_neg hp)) h).trans hrun

end

/-- Settles O9: by the stage of the STEP that faults; an instruction faults by its own check. -/
theorem faultsArePrecise : Obligations.FaultsArePrecise := by
  intro s t hrun h hfaulted
  obtain ⟨hms, -⟩ | ⟨-, hpc, hs⟩ | ⟨w, e, -, -, hf, -, hs⟩ | ⟨w, i, -, -, hf, -, hs⟩ := step_cases s
  · exact absurd hrun hms
  · cases hs.symm.trans h
    exact ⟨.addressOutOfRange, Cause.noConfusion, by rw [State.fetch_eq_none hpc]; rfl⟩
  · cases hs.symm.trans h
    exact ⟨.unknownInstruction, Cause.noConfusion, by rw [hf]; rfl⟩
  · have hexec : exec i (s.setLast w) = .next t := hs.symm.trans h
    have heffect := exec_effect i (s.setLast w)
    rw [hexec] at heffect
    obtain ⟨-, hcontrol, -⟩ := heffect
    obtain ⟨c, -, rfl⟩ := exec_faulted (s := s.setLast w) hrun hexec hfaulted
    exact ⟨c, hcontrol.cause_ne_none hrun hfaulted, by rw [hf]; rfl⟩

/-- Settles O10: the fetch, then the decoder, then the instruction's own check. -/
theorem faultsExactlyAsListed : Obligations.FaultsExactlyAsListed := by
  intro s t hrun h
  refine ⟨fun hpc => ?_, fun w e hf hd => ?_, fun w i hf hd => ?_⟩
  · cases (step_of_fetch_none hrun (State.fetch_eq_none hpc)).symm.trans h
    exact ⟨rfl, rfl⟩
  · cases (step_of_decode_error hrun hf hd).symm.trans h
    exact ⟨rfl, rfl⟩
  · have hexec : exec i (s.setLast w) = .next t := (step_of_decode_ok hrun hf hd).symm.trans h
    have hrun' : (s.setLast w).ms = .running := hrun
    cases i with
    | call nnn => exact exec_faulted_or_running rfl Instr.noConfusion hrun' hexec
    | ret => exact exec_faulted_or_running rfl Instr.noConfusion hrun' hexec
    | drw x y n => exact exec_faulted_or_running rfl Instr.noConfusion hrun' hexec
    | storeRegs x => exact exec_faulted_or_running rfl Instr.noConfusion hrun' hexec
    | loadRegs x => exact exec_faulted_or_running rfl Instr.noConfusion hrun' hexec
    | exit => cases hexec; rfl
    | _ => exact (exec_ms_of_no_ownFault Instr.noConfusion rfl hexec).trans hrun'

/-! ## The timers -/

/-- Settles O42: both timers by the law of one. -/
theorem tickCountsDown : Obligations.TickCountsDown := fun b =>
  ⟨b.state.tick, rfl, tickTimer_toNat b.state.dt, tickTimer_toNat b.state.st, rfl⟩

@[simp] theorem State.dataAddr_tick (s : State) (k : Nat) : s.tick.dataAddr k = s.dataAddr k := rfl

@[simp] theorem State.regsUpTo_tick (s : State) (x : Reg) : s.tick.regsUpTo x = s.regsUpTo x := rfl

theorem State.skipIf_tick (s : State) (c : Bool) : s.tick.skipIf c = (s.skipIf c).tick := by
  cases c <;> rfl

section
variable {s t : State} {i : Instr}

/-- No instruction reads or writes a timer, so a tick passes through it (R210, R211). -/
theorem exec_tick (h : exec i s = .next t) : exec i s.tick = .next t.tick := by
  cases i with
  | ret =>
    obtain ⟨hempty, rfl⟩ | ⟨hne, rfl⟩ := exec_ret_cases h
    · exact exec_ret_of_empty (s := s.tick) hempty
    · exact exec_ret_of_nonempty (s := s.tick) hne
  | call nnn =>
    obtain ⟨hfull, rfl⟩ | ⟨hroom, rfl⟩ := exec_call_cases h
    · exact exec_call_of_full (s := s.tick) nnn hfull
    · exact exec_call_of_room (s := s.tick) nnn hroom
  | drw x y n =>
    obtain ⟨hr, rfl⟩ | ⟨sprite, hr, rfl⟩ := exec_drw_cases h <;>
    · simp only [exec, execDrw, State.tick_mem, State.dataAddr_tick, hr]
      rfl
  | storeRegs x =>
    obtain ⟨hw, rfl⟩ | ⟨m, hw, rfl⟩ := exec_storeRegs_cases h <;>
    · simp only [exec, execStoreRegs, State.tick_mem, State.dataAddr_tick, State.regsUpTo_tick, hw]
      rfl
  | loadRegs x =>
    obtain ⟨hr, rfl⟩ | ⟨bs, hr, rfl⟩ := exec_loadRegs_cases h <;>
    · simp only [exec, execLoadRegs, State.tick_mem, State.dataAddr_tick, hr]
      rfl
  | seImm x kk => cases h; exact congrArg _ (s.skipIf_tick _)
  | sneImm x kk => cases h; exact congrArg _ (s.skipIf_tick _)
  | seReg x y => cases h; exact congrArg _ (s.skipIf_tick _)
  | sneReg x y => cases h; exact congrArg _ (s.skipIf_tick _)
  | _ => cases h; rfl

/-- A tick passes through a STEP, whichever way it ends (R210). -/
theorem step_tick (h : step s = .next t) : step s.tick = .next t.tick := by
  obtain ⟨hms, hs⟩ | ⟨hms, hpc, hs⟩ | ⟨w, e, hms, -, hf, hd, hs⟩ | ⟨w, i, hms, -, hf, hd, hs⟩ :=
    step_cases s
  · cases hs.symm.trans h
    exact step_of_terminal (s := s.tick) hms
  · cases hs.symm.trans h
    exact step_of_fetch_none (s := s.tick) hms (State.fetch_eq_none (s := s.tick) hpc)
  · cases hs.symm.trans h
    exact step_of_decode_error (s := s.tick) hms hf hd
  · have hexec : exec i (s.setLast w).tick = .next t.tick := exec_tick (hs.symm.trans h)
    exact (step_of_decode_ok (s := s.tick) hms hf hd).trans hexec

end

/-- Settles O44: the byte at hand and the timers are different fields, and a tick passes through the
STEP in between. -/
theorem tickCommutesWithStep : Obligations.TickCommutesWithStep := by
  intro r s t h
  obtain ⟨u, hu, hw⟩ := stepWith_exists_step r s
  cases hw.symm.trans h
  have htick : step (s.tick.setEntropy (some r)) = .next u.tick := step_tick hu
  exact stepWith_eq htick

end Sys2Proof.Machine

/-! PROOFS. The strict families 0, 5 and 9 (R95, R98; D10, D11). -/

namespace Sys2Proof

open Machine

/-- The secondary dispatch of family 0 yields no operands (R95). -/
theorem eq_of_dispatch0 {f : Fields} {i : Instr} (h : dispatch0 f = .ok i) :
    i = .cls ∨ i = .ret ∨ i = .exit := by
  unfold dispatch0 at h
  split_ifs at h
  · cases h; exact .inl rfl
  · cases h; exact .inr (.inl rfl)
  · cases h; exact .inr (.inr rfl)

/-- The secondary dispatch of family 5 turns away exactly the `n` other than 0 (R98). -/
theorem exists_dispatch5_iff (f : Fields) : (∃ i, dispatch5 f = .ok i) ↔ f.n = 0 := by
  unfold dispatch5
  split_ifs <;> simp [*]

/-- The secondary dispatch of family 9 turns away exactly the `n` other than 0 (R98). -/
theorem exists_dispatch9_iff (f : Fields) : (∃ i, dispatch9 f = .ok i) ↔ f.n = 0 := by
  unfold dispatch9
  split_ifs <;> simp [*]

section
variable {w : Word}

/-- A legal word of family 0 is the word of one of its three instructions, all 16 bits (D10). -/
theorem legal_iff_of_op0 (hop : (Fields.ofWord w).op = 0) :
    Legal w ↔ w ∈ [0x00E0, 0x00EE, 0x00FD] := by
  constructor
  · rintro ⟨i, hd⟩
    have hdispatch : dispatch0 (Fields.ofWord w) = .ok i := by
      simpa only [decode, dispatch, hop] using hd
    rw [← encode_of_decode hd]
    obtain rfl | rfl | rfl := eq_of_dispatch0 hdispatch <;> decide
  · intro hw
    simp only [List.mem_cons, List.not_mem_nil, or_false] at hw
    obtain rfl | rfl | rfl := hw
    · exact ⟨_, decode_encode .cls⟩
    · exact ⟨_, decode_encode .ret⟩
    · exact ⟨_, decode_encode .exit⟩

theorem legal_iff_of_op5 (hop : (Fields.ofWord w).op = 5) : Legal w ↔ (Fields.ofWord w).n = 0 := by
  simp only [Legal, decode, dispatch, hop, exists_dispatch5_iff]

theorem legal_iff_of_op9 (hop : (Fields.ofWord w).op = 9) : Legal w ↔ (Fields.ofWord w).n = 0 := by
  simp only [Legal, decode, dispatch, hop, exists_dispatch9_iff]

end

/-- Settles O5: each family's condition is exactly legality. -/
theorem strictFamilyLegality : Obligations.StrictFamilyLegality := by
  refine ⟨fun w hop => legal_and_faults (legal_iff_of_op0 hop), fun w hop => ?_⟩
  simp only [List.mem_cons, List.not_mem_nil, or_false] at hop
  obtain hop | hop := hop
  · exact legal_and_faults (legal_iff_of_op5 hop)
  · exact legal_and_faults (legal_iff_of_op9 hop)

end Sys2Proof

/-! PROOFS. The end of a run (R246) and the load port (R243). -/

namespace Sys2Proof.Machine

open Sys2Proof

/-! ## How a run ends -/

section
variable {i : Instr} {s t : State}

/-- From RUNNING, EXIT halts and no other instruction does (R123). -/
theorem exec_halted_iff (hrun : s.ms = .running) (h : exec i s = .next t) :
    t.ms = .halted ↔ i = .exit := by
  by_cases hexit : i = .exit
  · subst hexit
    cases h
    exact iff_of_true rfl rfl
  · refine iff_of_false ?_ hexit
    cases hown : ownFault i s with
    | some c =>
      cases (exec_of_ownFault hown).symm.trans h
      exact MState.noConfusion
    | none =>
      rw [exec_ms_of_no_ownFault hexit hown h, hrun]
      exact MState.noConfusion

/-- EXIT has one word (R95, R104). -/
theorem eq_exit_iff_of_decode {w : Word} (hd : decode w = .ok i) : i = .exit ↔ w = 0x00FD := by
  rw [← encode_of_decode hd]
  exact ⟨congrArg encode, fun h => Except.ok.inj ((decode_encode i).symm.trans (h ▸ rfl))⟩

/-- A STEP of a RUNNING machine halts exactly when it fetches 0x00FD: the fetch and the decoder can
only fault (R246). -/
theorem step_halted_iff (hrun : s.ms = .running) (h : step s = .next t) :
    t.ms = .halted ↔ s.fetch = some 0x00FD := by
  obtain ⟨hms, -⟩ | ⟨-, hpc, hs⟩ | ⟨w, e, -, -, hf, hd, hs⟩ | ⟨w, i, -, -, hf, hd, hs⟩ := step_cases s
  · exact absurd hrun hms
  · cases hs.symm.trans h
    rw [State.fetch_eq_none hpc]
    exact iff_of_false MState.noConfusion (Option.some_ne_none _).symm
  · cases hs.symm.trans h
    refine iff_of_false MState.noConfusion fun hexit => ?_
    cases hf.symm.trans hexit
    cases hd.symm.trans (decode_encode .exit)
  · rw [exec_halted_iff (s := s.setLast w) hrun (hs.symm.trans h), eq_exit_iff_of_decode hd, hf,
      Option.some.injEq]

/-- A STEP of a RUNNING machine that ends FAULTED has named its cause (R202, R246). -/
theorem step_cause_ne_none (hrun : s.ms = .running) (h : step s = .next t)
    (hfaulted : t.ms = .faulted) : t.cause ≠ .none := by
  obtain ⟨c, hc, rfl⟩ := faultsArePrecise s t hrun h hfaulted
  exact hc

end

/-- Settles O8: a terminal STEP keeps the state, a RUNNING one halts by EXIT alone, and the other two
events do not look at MS. -/
theorem endOfRun : Obligations.EndOfRun :=
  ⟨fun _ hterminal => ⟨step_of_terminal hterminal, fun r => stepWith_of_terminal r hterminal⟩,
    fun _ _ hrun h => ⟨step_halted_iff hrun h, step_cause_ne_none hrun h⟩,
    fun b _ => ⟨tickCountsDown b, rfl⟩⟩

/-! ## The load port -/

section
variable {bytes : List Byte} {m m' : Memory} {a : Nat}

/-- An image that does not fit is refused (R243). -/
theorem State.load_eq_none (s : State) (h : ¬ ImageFits bytes) : s.load bytes = none :=
  if_neg h

/-- An image that fits ends inside memory, so all of it is written at `PROG_BASE` (R243). -/
theorem State.load_of_fits (s : State) (h : ImageFits bytes) :
    ∃ m, s.mem.writeRange Config.progBase bytes = some m ∧ s.load bytes = some (s.setMem m) := by
  have hrange : RangeOk Config.progBase bytes.length := by
    simp only [ImageFits, Config.loadLimit, RangeOk, Config.progBase, Config.memSize] at h ⊢
    omega
  obtain ⟨m, hw⟩ := (Memory.writeRange_isSome s.mem Config.progBase bytes).2 hrange
  exact ⟨m, hw, by simp only [State.load, if_pos h, hw]⟩

/-- Before the first success and the first STEP, LOAD answers `ProgramTooLarge` where the load port
takes nothing (R243, R244). -/
theorem Block.handle_load_too_large {b : Block} (hfresh : b.phase = .fresh)
    (h : b.state.load bytes = none) : b.handle (.load bytes) = .next (b, .programTooLarge) := by
  simp only [Block.handle, Block.onLoad, hfresh, h]

/-- Before the first success and the first STEP, LOAD ends in the load port's state (R243, R244). -/
theorem Block.handle_load_ok {b : Block} {t : State} (hfresh : b.phase = .fresh)
    (h : b.state.load bytes = some t) : b.handle (.load bytes) = .next (⟨.loaded, t⟩, .loadOk) := by
  simp only [Block.handle, Block.onLoad, hfresh, h]

/-- After several byte writes, the `k`-th address from the first reads the `k`-th byte (R65). -/
theorem Memory.read_writeRange (hw : m.writeRange a bytes = some m') {k : Nat}
    (hk : k < bytes.length) : m'.read (a + k) = some bytes[k] := by
  have hsub : a + k - a = k := Nat.add_sub_cancel_left a k
  have hin : a ≤ a + k ∧ a + k - a < bytes.length := ⟨Nat.le_add_right a k, hsub.symm ▸ hk⟩
  rw [(Memory.writeRange_spec hw).2, dif_pos hin]
  simp only [hsub]

/-- After several byte writes, an address outside the range reads as before (R66). -/
theorem Memory.read_writeRange_outside (hw : m.writeRange a bytes = some m') {c : Nat}
    (hc : c < a ∨ a + bytes.length ≤ c) : m'.read c = m.read c :=
  ((Memory.writeRange_spec hw).2 c).trans (dif_neg (by omega))

end

/-- Settles O40: by whether the image fits; what the write does to memory is its law. -/
theorem loadCopiesImage : Obligations.LoadCopiesImage := by
  refine fun b bytes hfresh => ⟨fun hlong => ?_, fun hfits => ?_⟩
  · exact Block.handle_load_too_large hfresh (b.state.load_eq_none (Nat.not_lt.2 hlong))
  · obtain ⟨m, hw, hload⟩ := b.state.load_of_fits hfits
    exact ⟨m, Block.handle_load_ok hfresh hload, fun _ hk => Memory.read_writeRange hw hk,
      fun _ ha => Memory.read_writeRange_outside hw ha⟩

end Sys2Proof.Machine
